-- ==== Sys2Proof/Word.lean ====
section
/-! DEFINITION. The bit patterns of the block: bytes, 32-bit and 64-bit patterns (R8, R10). -/

namespace Sys2Proof

/-- `u8`: one storage word of the bit array, one key byte, one stream byte (R6, R8). -/
abbrev Byte := BitVec 8

/-- `u32`: hash values, seeds, `combined`, round numbers, command words (R6, R8). -/
abbrev U32 := BitVec 32

/-- `u64`: register transaction data, `entries`, `bitCount`, `bitIndex` (R6, R7, R8). -/
abbrev U64 := BitVec 64

end Sys2Proof
end

