-- ==== Sys2Proof/Config.lean ====
section
/-! DEFINITION. What an implementation fixes and the spec leaves open (R7): the capacities, the base address, and the
bytes the spec calls unspecified (`spec/93_implementation_defined.md` U1, U2, U9, U11). -/

namespace Sys2Proof

/-- The memories whose bytes can be unspecified (R51, R61, R62, R46). -/
inductive Space where
  | bitmem
  | keybuf
  | ldHdr
  deriving DecidableEq, Repr

/-- The open parameters of R7 that a model takes as arguments. They are carried in `State.params` and never change
(log entry 1). -/
structure Params where
  /-- `BITMEM_CAP`, bytes; `1 <= BITMEM_CAP <= 2^61` (R7). -/
  bitmemCap : Nat
  /-- `KEY_CAP`, bytes; `0 <= KEY_CAP <= 2^32 - 1` (R7). -/
  keyCap : Nat
  /-- `REG_BASE`, the platform's address of register 0; a multiple of 256 (R77). -/
  regBase : Nat
  deriving DecidableEq, Repr

/-- Open numbers behind the parameters of the machine that `State.reset` stands for (log entry 1). -/
opaque Config.openBitmemCap : Nat
opaque Config.openKeyCap : Nat
opaque Config.openRegBase : Nat

/-- The parameters of the machine that `State.reset` stands for. Nothing can be proved about them but R7's ranges:
as the open numbers run over `Nat`, these run over every value the spec allows (log entry 1; DESIGN CHOICE). -/
def Config.params : Params where
  bitmemCap := 2 ^ 61 - Config.openBitmemCap % 2 ^ 61
  keyCap := 2 ^ 32 - 1 - Config.openKeyCap % 2 ^ 32
  regBase := 256 * Config.openRegBase

/-- The free value of a byte the spec calls unspecified: the byte of a space at an offset, since the space last became
unspecified for the `epoch`-th time (U1, U2, U9: "each such byte is a free draw, fixed from the moment it is first read
until it next becomes unspecified"; log entry 2). -/
opaque Config.freeByte : (space : Space) → (epoch : Nat) → (offset : Nat) → Byte

end Sys2Proof
end

