-- ==== Sys2Proof/Syntax.lean ====
section
/-! DEFINITION. The ten commands (R92), the nineteen registers (R21) and what the host can do to the block (R20, R71,
R77, R230). -/

namespace Sys2Proof

/-- The commands of R92, in the order of `spec/opcode_table.json`. A command has no operand fields (R91). -/
inductive Instr where
  | load
  | loadEnd
  | loadAbort
  | sealInstance
  | release
  | hash
  | hashPair
  | index
  | bitTest
  | contains
  deriving DecidableEq, Repr

/-- The registers of R21, in the order of their numbers. -/
inductive Reg where
  | cmd
  | status
  | entries
  | hashRounds
  | bitCount
  | keyLen
  | kAddr
  | kData
  | seed
  | hashOut
  | h1
  | h2
  | round
  | combined
  | bitIndex
  | bmAddr
  | bmData
  | stream
  | ldCnt
  deriving DecidableEq, Repr

/-- The two host transactions of R20: `RegRead(n)` and `RegWrite(n, v)`. -/
inductive Transaction where
  | read (n : Nat)
  | write (n : Nat) (v : U64)
  deriving DecidableEq, Repr

/-- An access as the platform carries it (R71, R77): an address, a size in bytes, and the data of a write
(`none` for a read). -/
structure BusAccess where
  addr : Nat
  bytes : Nat
  data : Option U64
  deriving DecidableEq, Repr

/-- What the outside world can do to the block: a register transaction (R20), the same carried by the platform as an
addressed access (R77), or the reset input asserted and released (R230, R231). -/
inductive HostEvent where
  | transaction (t : Transaction)
  | bus (a : BusAccess)
  | reset
  deriving DecidableEq, Repr

end Sys2Proof
end

