-- ==== Sys2Proof/WellFormed.lean ====
section
/-! DEFINITION. Well-formedness of commands, command words, accesses and parameters. -/

namespace Sys2Proof

/-- Every command is well-formed: it has no operand field that could be out of range (R91). -/
def Instr.wellFormed : Instr → Bool
  | .load | .loadEnd | .loadAbort | .sealInstance | .release => true
  | .hash | .hashPair | .index | .bitTest | .contains => true

/-- A command word is well-formed when bits 31:8 are zero and bits 7:0 are one of the ten opcodes (R90, R92, R94). -/
def cmdWordWellFormed (w : U32) : Bool :=
  w.toNat / 2 ^ 8 == 0 && [0x01, 0x02, 0x03, 0x04, 0x05, 0x10, 0x11, 0x12, 0x13, 0x14].contains (w.toNat % 2 ^ 8)

/-- The access lies in the 256-byte region that the block decodes at `base` (R77). -/
def BusAccess.inRegion (base : Nat) (a : BusAccess) : Bool :=
  decide (base ≤ a.addr) && decide (a.addr < base + 256)

/-- The access is one aligned 64-bit register transaction (R71). -/
def BusAccess.aligned (base : Nat) (a : BusAccess) : Bool :=
  a.bytes == 8 && (a.addr - base) % 8 == 0

/-- The parameters lie in the ranges R7 and R77 give them. -/
def Params.wellFormed (p : Params) : Bool :=
  decide (1 ≤ p.bitmemCap) && decide (p.bitmemCap ≤ 2 ^ 61) && decide (p.keyCap ≤ 2 ^ 32 - 1) && p.regBase % 256 == 0

end Sys2Proof
end

