-- ==== Sys2Proof/Decode.lean ====
section
/-! DEFINITION. Decoding of command words (R90 to R95), of register numbers (R21, R96) and of addressed accesses (R71,
R77), and the encoders beside them. -/

namespace Sys2Proof

/-- Bits 31:8 of a command word, which must be 0 (R90). -/
def cmdZeroField (w : U32) : BitVec 24 := w.extractLsb' 8 24

/-- Bits 7:0 of a command word, the opcode (R90). -/
def cmdOpcode (w : U32) : BitVec 8 := w.extractLsb' 0 8

/-- The opcode map of R92; every other opcode is illegal (R94). -/
def opcodeInstr (opcode : BitVec 8) : Option Instr :=
  match opcode.toNat with
  | 0x01 => some .load
  | 0x02 => some .loadEnd
  | 0x03 => some .loadAbort
  | 0x04 => some .sealInstance
  | 0x05 => some .release
  | 0x10 => some .hash
  | 0x11 => some .hashPair
  | 0x12 => some .index
  | 0x13 => some .bitTest
  | 0x14 => some .contains
  | _ => none

/-- R93: the command a word stands for; `none` is the illegal word (`E_ILLEGAL`, R94). It depends on the word alone. -/
def decode (w : U32) : Option Instr :=
  if cmdZeroField w ≠ 0 then none else opcodeInstr (cmdOpcode w)

/-- The full command word of R92. -/
def encode : Instr → U32
  | .load => 0x00000001
  | .loadEnd => 0x00000002
  | .loadAbort => 0x00000003
  | .sealInstance => 0x00000004
  | .release => 0x00000005
  | .hash => 0x00000010
  | .hashPair => 0x00000011
  | .index => 0x00000012
  | .bitTest => 0x00000013
  | .contains => 0x00000014

/-- The decoder on a word numbered as `spec/opcode_table.json` numbers it: one 32-bit word, the bits above `nbits` 0
(R90, R95: a command is one word). -/
def decodeTableWord (nbits w : Nat) : Option Instr :=
  if nbits ≤ 32 then decode (BitVec.ofNat 32 (w % 2 ^ nbits)) else none

/-- The register a number selects (R21, R96); numbers 19 and above are not implemented. -/
def decodeReg : Nat → Option Reg
  | 0 => some .cmd
  | 1 => some .status
  | 2 => some .entries
  | 3 => some .hashRounds
  | 4 => some .bitCount
  | 5 => some .keyLen
  | 6 => some .kAddr
  | 7 => some .kData
  | 8 => some .seed
  | 9 => some .hashOut
  | 10 => some .h1
  | 11 => some .h2
  | 12 => some .round
  | 13 => some .combined
  | 14 => some .bitIndex
  | 15 => some .bmAddr
  | 16 => some .bmData
  | 17 => some .stream
  | 18 => some .ldCnt
  | _ => none

/-- The number of a register (R21). -/
def encodeReg : Reg → Nat
  | .cmd => 0
  | .status => 1
  | .entries => 2
  | .hashRounds => 3
  | .bitCount => 4
  | .keyLen => 5
  | .kAddr => 6
  | .kData => 7
  | .seed => 8
  | .hashOut => 9
  | .h1 => 10
  | .h2 => 11
  | .round => 12
  | .combined => 13
  | .bitIndex => 14
  | .bmAddr => 15
  | .bmData => 16
  | .stream => 17
  | .ldCnt => 18

/-- The register transaction an access in the region stands for: register number `n` stands at byte offset `8 * n`
from `base` (R77); an access that is not one aligned 64-bit transaction is none (R71). -/
def decodeAccess (base : Nat) (a : BusAccess) : Option Transaction :=
  if a.aligned base then
    match a.data with
    | none => some (.read ((a.addr - base) / 8))
    | some v => some (.write ((a.addr - base) / 8) v)
  else none

/-- The access by which the platform carries a register transaction (R77). -/
def encodeAccess (base : Nat) : Transaction → BusAccess
  | .read n => ⟨base + 8 * n, 8, none⟩
  | .write n v => ⟨base + 8 * n, 8, some v⟩

/-- The register transaction an event is, alone or carried by the platform (R20, R77); reset and an access that is no
register transaction of this block are none. -/
def HostEvent.resolve (base : Nat) : HostEvent → Option Transaction
  | .transaction t => some t
  | .bus a => if a.inRegion base then decodeAccess base a else none
  | .reset => none

end Sys2Proof
end

