-- ==== Sys2Proof/Machine/State.lean ====
section
/-! DEFINITION. The state of the block (`spec/10_state.md`, `spec/20_memory.md`), the reasons a step can stop, and the
state after reset (R51, R230). -/

namespace Sys2Proof.Machine

/-- The hidden load phase (R45); STATUS.PHASE shows it (R35). -/
inductive Phase where
  | idle
  | ldHeader
  | ldPayload
  deriving DecidableEq, Repr

/-- The error codes of STATUS.ERR (R200). -/
inductive Err where
  | ok
  | alloc
  | illegal
  | state
  | range
  | degen
  deriving DecidableEq, Repr

/-- The load outcomes of STATUS.LDSTAT (R201). -/
inductive LdStat where
  | none
  | io
  | hdrShort
  | empty
  | payloadShort
  | alloc
  | ok
  deriving DecidableEq, Repr

/-- Why the machine stops. The block itself has no fault (R72, R206): these arise only in states that the invariants of
R50 rule out (log entry 7). -/
inductive Fault where
  /-- Raised by BITTEST, CONTAINS and a STREAM payload byte: a BITMEM offset that does not exist (R61: "only offsets
  below `BITMEM_CAP` exist"). Safe: no reachable state raises it. -/
  | bitmemOffsetAbsent
  /-- Raised by a STREAM header byte when LDCNT is not below 20: `LD_HDR` has the bytes 0 to 19 (R46). Safe: no reachable
  state raises it. -/
  | ldHdrIndexAbsent
  deriving DecidableEq, Repr

/-- What the model gives no meaning to. -/
inductive Refusal where
  /-- Raised by `exec` for a command without a meaning; no arm raises it. Safe. -/
  | notModelled (mnemonic : String)
  /-- Raised by a host access in the block's region that is not one aligned 64-bit register transaction (R71, U4:
  "a model refuses them"). Safe. -/
  | accessNotARegisterTransaction
  /-- Raised by a host access outside the 256-byte region the block decodes (R77): it is not addressed to the block.
  Safe (log entry 8). -/
  | accessOutsideRegion
  deriving DecidableEq, Repr

/-- A memory: the bytes written since its content last became unspecified, as (offset, byte) pairs. The one canonical
form is `Memory.wf`: offsets strictly rising. An unlisted offset holds no value of the spec's; what it reads as is
`Config.freeByte` (log entry 2). -/
abbrev Memory := List Host.Cell

/-- The canonical form of a memory (log entry 2). -/
abbrev Memory.wf (m : Memory) : Prop := m.Pairwise fun a b => a.1 < b.1

/-- Everything the spec gives the block (R21, R33, R45, R46, R60), and the model's own fields: `params`, the two epoch
counters, `inbox` and `outbox` (log entries 1, 3, 4, 5). CMD, KDATA, BMDATA and STREAM are not stored (R38, R43, R48,
R49); STATUS is computed from its fields (R33). -/
@[ext]
structure State where
  /-- The open parameters of R7; nothing writes them. -/
  params : Params
  /-- STATUS.VALID (R34). -/
  valid : Bool
  /-- The load phase, STATUS.PHASE (R35, R45). -/
  phase : Phase
  /-- STATUS.RESULT (R36). -/
  result : Bool
  /-- STATUS.DEGEN (R36). -/
  degen : Bool
  /-- STATUS.ERR (R37). -/
  err : Err
  /-- STATUS.LDSTAT (R37). -/
  ldstat : LdStat
  /-- BITMEM (R60, R61): the bytes written since its content last became unspecified. -/
  bitmem : Memory
  /-- How often BITMEM has become unspecified (R61). -/
  bitmemEpoch : Nat
  /-- KEYBUF (R60, R62): the bytes written since reset. -/
  keybuf : Memory
  /-- `LD_HDR` (R46): the header bytes written since reset. -/
  ldHdr : Memory
  /-- How often reset has been applied: KEYBUF and `LD_HDR` become unspecified then (R51). -/
  resetEpoch : Nat
  /-- What the outside world will do to the block, in the one total order of R79. -/
  inbox : List HostEvent
  /-- The data RegRead transactions have returned, newest first (R20). -/
  outbox : List U64
  /-- ENTRIES, register 2 (R39). -/
  entries : U64
  /-- HASHROUNDS, register 3 (R40). -/
  hashRounds : U32
  /-- BITCOUNT, register 4 (R41). -/
  bitCount : U64
  /-- KEYLEN, register 5 (R42). -/
  keyLen : U32
  /-- KADDR, register 6 (R43). -/
  kAddr : U32
  /-- SEED, register 8 (R23). -/
  seed : U32
  /-- HASHOUT, register 9 (R24). -/
  hashOut : U32
  /-- H1, register 10 (R25). -/
  h1 : U32
  /-- H2, register 11 (R26). -/
  h2 : U32
  /-- ROUND, register 12 (R27). -/
  round : U32
  /-- COMBINED, register 13 (R28). -/
  combined : U32
  /-- BITINDEX, register 14 (R29). -/
  bitIndex : U64
  /-- BMADDR, register 15 (R48). -/
  bmAddr : U64
  /-- LDCNT, register 18 (R44). -/
  ldCnt : U64
  deriving DecidableEq, Repr

/-- The state after reset of a block with parameters `p`: every register 0, `phase` IDLE, the memories unspecified (R51,
R230). -/
def State.resetWith (p : Params) : State where
  params := p
  valid := false
  phase := .idle
  result := false
  degen := false
  err := .ok
  ldstat := .none
  entries := 0
  hashRounds := 0
  bitCount := 0
  keyLen := 0
  kAddr := 0
  seed := 0
  hashOut := 0
  h1 := 0
  h2 := 0
  round := 0
  combined := 0
  bitIndex := 0
  bmAddr := 0
  ldCnt := 0
  bitmem := []
  bitmemEpoch := 0
  keybuf := []
  ldHdr := []
  resetEpoch := 0
  inbox := []
  outbox := []

/-- The machine right after reset (R51), with the open parameters of `Config.params`. -/
def State.reset : State := State.resetWith Config.params

end Sys2Proof.Machine
end

