-- ==== Sys2Proof/Machine/Flags.lean ====
section
/-! DEFINITION. The STATUS register: the codes of its fields and the word they make (R33, R200, R201), and the
conditions the commands test (R14, R152). -/

namespace Sys2Proof.Machine

/-- STATUS.PHASE's code (R33, R35); 3 never occurs. -/
def Phase.code : Phase → BitVec 2
  | .idle => 0
  | .ldHeader => 1
  | .ldPayload => 2

/-- STATUS.ERR's code (R200). -/
def Err.code : Err → BitVec 4
  | .ok => 0
  | .alloc => 5
  | .illegal => 6
  | .state => 7
  | .range => 8
  | .degen => 9

/-- STATUS.LDSTAT's code (R201). -/
def LdStat.code : LdStat → BitVec 4
  | .none => 0
  | .io => 1
  | .hdrShort => 2
  | .empty => 3
  | .payloadShort => 4
  | .alloc => 5
  | .ok => 15

/-- The word six STATUS fields make (R33), from bit 31 down: reserved, LDSTAT, ERR, reserved, DEGEN, RESULT, PHASE,
VALID. -/
def statusOf (ldstat : LdStat) (err : Err) (degen result : Bool) (phase : Phase) (valid : Bool) : U32 :=
  (0 : BitVec 16) ++ ldstat.code ++ err.code ++ (0 : BitVec 3) ++ BitVec.ofBool degen ++ BitVec.ofBool result
    ++ phase.code ++ BitVec.ofBool valid

/-- STATUS, register 1 (R33). -/
def statusWord (s : State) : U32 := statusOf s.ldstat s.err s.degen s.result s.phase s.valid

/-- Open: no load is running and no instance exists (R14, R21). -/
def State.isOpen (s : State) : Bool := decide (s.phase = .idle) && !s.valid

/-- The degenerate condition of R152: no bit buffer, `bitCount == 0` or `hashRounds == 0`. -/
def State.isDegenerate (s : State) : Bool :=
  !s.valid || decide (s.bitCount = 0) || decide (s.hashRounds = 0)

end Sys2Proof.Machine
end

