-- ==== Sys2Proof/Machine/Ops.lean ====
section
/-! DEFINITION. The named operations over memories and registers (R11 to R13), the ways a command ends (R206), the end of
a load session (R178), and reset (R230). -/

namespace Sys2Proof.Machine

/-- The answer of a command, a transaction or a step. -/
abbrev Answer := Host.Outcome State Fault Refusal

/-- The byte a memory lists at an offset, if it was written since the memory last became unspecified (R61, R62). -/
def Memory.lookup : Memory → Nat → Option Byte
  | [], _ => none
  | (a, b) :: m, k => if a = k then some b else Memory.lookup m k

/-- `MemWrite(S, k, 1, v)` of R11, keeping the offsets rising. -/
def Memory.store : Memory → Nat → Byte → Memory
  | [], k, v => [(k, v)]
  | (a, b) :: m, k, v =>
    if k < a then (k, v) :: (a, b) :: m
    else if k = a then (k, v) :: m
    else (a, b) :: Memory.store m k v

/-- `ceil8(n)` of R12, exact over the naturals. -/
def ceil8 (n : U64) : Nat := n.toNat / 8 + if n.toNat % 8 ≠ 0 then 1 else 0

/-- `be32` of R13: the first byte is the most significant. -/
def be32 (b0 b1 b2 b3 : Byte) : U32 :=
  BitVec.ofNat 32 (b0.toNat * 2 ^ 24 + b1.toNat * 2 ^ 16 + b2.toNat * 2 ^ 8 + b3.toNat)

/-- `be64` of R13: the first byte is the most significant. -/
def be64 (b0 b1 b2 b3 b4 b5 b6 b7 : Byte) : U64 :=
  BitVec.ofNat 64 (b0.toNat * 2 ^ 56 + b1.toNat * 2 ^ 48 + b2.toNat * 2 ^ 40 + b3.toNat * 2 ^ 32 + b4.toNat * 2 ^ 24
    + b5.toNat * 2 ^ 16 + b6.toNat * 2 ^ 8 + b7.toNat)

/-- `le32` of R13: the first byte is the least significant. -/
def le32 (b0 b1 b2 b3 : Byte) : U32 :=
  BitVec.ofNat 32 (b0.toNat + b1.toNat * 2 ^ 8 + b2.toNat * 2 ^ 16 + b3.toNat * 2 ^ 24)

/-- `x[STATUS].ERR <- e` (R37). -/
def State.withErr (s : State) (e : Err) : State := { s with err := e }

/-- `x[ENTRIES]`, `x[HASHROUNDS]`, `x[BITCOUNT]` written together (R97, R173, R178). -/
def State.withHeader (s : State) (e : U64) (h : U32) (n : U64) : State :=
  { s with entries := e, hashRounds := h, bitCount := n }

/-- RESULT and DEGEN written together (R36). -/
def State.withResult (s : State) (r d : Bool) : State := { s with result := r, degen := d }

/-- COMBINED and BITINDEX written together (R28, R29). -/
def State.withIndex (s : State) (c : U32) (b : U64) : State := { s with combined := c, bitIndex := b }

/-- BITMEM's content becomes unspecified (R61): nothing is listed and a new draw of free bytes begins. -/
def State.dropBitmem (s : State) : State := { s with bitmem := [], bitmemEpoch := s.bitmemEpoch + 1 }

/-- `raise e` (R206): the whole of error entry. The command stops, ERR takes the code and no other state changes;
nothing is saved and control goes nowhere. There is no return from an error (R207): the next CMD write overwrites ERR. -/
def raise (e : Err) (s : State) : Answer := .next (s.withErr e)

/-- A command that was accepted and completed: `x[STATUS].ERR <- E_OK` (R37). -/
def complete (s : State) : Answer := .next (s.withErr .ok)

/-- `load_fail(code)` of R178: the session ends, the header fields are cleared, BITMEM is given up; VALID, LDCNT and ERR
keep their values. -/
def loadFail (code : LdStat) (s : State) : State :=
  { (s.withHeader 0 0 0).dropBitmem with phase := .idle, ldstat := code }

/-- Reset (R230, R231): every register 0, `phase` IDLE, the three memories unspecified. The parameters stay, and so do
the host's side of the interface: the events that follow the reset and the data already returned (log entry 6). -/
def applyReset (s : State) : State :=
  { State.resetWith s.params with
    bitmemEpoch := s.bitmemEpoch + 1
    resetEpoch := s.resetEpoch + 1
    inbox := s.inbox
    outbox := s.outbox }

end Sys2Proof.Machine
end

