-- ==== Sys2Proof/Machine/Operands.lean ====
section
/-! DEFINITION. The operands of commands and ports: bytes of the three memories (R11, R60) and the key (R42). Register
operands are fields of `State`, read at full width as unsigned patterns (R91). -/

namespace Sys2Proof.Machine

/-- The byte a listed memory gives, or the free value of a byte that is unspecified (U1, U2, U9). -/
def readByte (space : Space) (epoch : Nat) (m : Memory) (k : Nat) : Byte :=
  (Memory.lookup m k).getD (Config.freeByte space epoch k)

/-- `MemRead(BITMEM, k, 1)` for an offset that exists (R11, R61). -/
def bitmemByte (s : State) (k : Nat) : Byte := readByte .bitmem s.bitmemEpoch s.bitmem k

/-- `MemRead(KEYBUF, k, 1)` (R11, R62). -/
def keybufByte (s : State) (k : Nat) : Byte := readByte .keybuf s.resetEpoch s.keybuf k

/-- `LD_HDR[k]` (R46). -/
def ldHdrByte (s : State) (k : Nat) : Byte := readByte .ldHdr s.resetEpoch s.ldHdr k

/-- The key: `MemRead(KEYBUF, 0, x[KEYLEN])` (R42, R62). -/
def key (s : State) : List Byte := (List.range s.keyLen.toNat).map (keybufByte s)

/-- The key does not fit the key buffer: the cause of `E_RANGE` for HASH, HASHPAIR and CONTAINS (R42, R200). -/
def keyTooLong (s : State) : Bool := decide (s.params.keyCap < s.keyLen.toNat)

end Sys2Proof.Machine
end

