-- ==== Sys2Proof/Machine/Hash.lean ====
section
/-! DEFINITION. The seeded hash unit and its commands HASH and HASHPAIR (`spec/40_hash.md`). -/

namespace Sys2Proof.Machine

/-- `M`, the hash multiplier (R6). -/
def hashM : U32 := 0x5bd1e995

/-- `SEED1`, the seed of the first base hash (R6). -/
def seed1 : U32 := 42

/-- The mixing of a packed group word before it is folded in (R112). -/
def hashMix (w : U32) : U32 := ((w * hashM) ^^^ ((w * hashM) >>> 24)) * hashM

/-- The group step (R112): the accumulator is multiplied, then the mixed word is XORed in (log entry 10). -/
def hashGroup (acc : U32) (b0 b1 b2 b3 : Byte) : U32 := (acc * hashM) ^^^ hashMix (le32 b0 b1 b2 b3)

/-- The tail step on the 0 to 3 trailing bytes (R114): each zero-extended into its own lane, from the last to the first,
then one multiplication (log entry 10). It is never given more than three. -/
def hashTail (acc : U32) : List Byte → U32
  | [] => acc
  | [b0] => (acc ^^^ b0.setWidth 32) * hashM
  | [b0, b1] => ((acc ^^^ (b1.setWidth 32 <<< 8)) ^^^ b0.setWidth 32) * hashM
  | b0 :: b1 :: b2 :: _ =>
    (((acc ^^^ (b2.setWidth 32 <<< 16)) ^^^ (b1.setWidth 32 <<< 8)) ^^^ b0.setWidth 32) * hashM

/-- The finish step (R115). -/
def hashFinish (acc : U32) : U32 :=
  let a := acc ^^^ (acc >>> 13)
  let a := a * hashM
  a ^^^ (a >>> 15)

/-- The groups in order, then the tail, then the finish (R113, R114, R115). -/
def hashRun (acc : U32) : List Byte → U32
  | b0 :: b1 :: b2 :: b3 :: rest => hashRun (hashGroup acc b0 b1 b2 b3) rest
  | tail => hashFinish (hashTail acc tail)

/-- `SeededHash(data, seed)` (R110, R116, R117), from the initial accumulator of R111. Data of 2^32 bytes or more is outside
R110's domain, and the spec says of it "Do not assume truncation" (N6, U8): that this total function takes the length modulo
2^32 there is the model's own, DESIGN CHOICE (log entry 16). No command evaluates it: a key has KEYLEN bytes, and KEYLEN is 32
bits wide (D25). -/
def seededHash (data : List Byte) (seed : U32) : U32 := hashRun (seed ^^^ BitVec.ofNat 32 data.length) data

/-- The first base hash of a key (R119, R153). -/
def baseHash1 (data : List Byte) : U32 := seededHash data seed1

/-- The second base hash of a key, seeded with the first (R119, R153). -/
def baseHash2 (data : List Byte) : U32 := seededHash data (baseHash1 data)

/-- HASH (R118). -/
def execHash (s : State) : Answer :=
  if keyTooLong s then raise .range s
  else complete { s with hashOut := seededHash (key s) s.seed }

/-- HASHPAIR (R119). -/
def execHashPair (s : State) : Answer :=
  if keyTooLong s then raise .range s
  else complete { s with h1 := baseHash1 (key s), h2 := baseHash2 (key s) }

end Sys2Proof.Machine
end

