-- ==== Sys2Proof/Machine/Index.lean ====
section
/-! DEFINITION. The bit-position derivation, the bit-test unit, and their commands INDEX and BITTEST
(`spec/41_index_bittest.md`). -/

namespace Sys2Proof.Machine

/-- `Combine(h1, h2, i)` (R130), wrapping modulo 2^32. -/
def combine (h1 h2 i : U32) : U32 := h1 + i * h2

/-- `Abs(c)` (R132, R10): the pattern read as signed, widened before it is negated. -/
def abs64 (c : U32) : Nat := c.toInt.natAbs

/-- `Abs(c) mod bitCount` (R133). Its value for `bitCount = 0` is never used (U10, log entry 14). -/
def reduceIndex (c : U32) (bitCount : U64) : U64 := BitVec.ofNat 64 (abs64 c % bitCount.toNat)

/-- The bit of a storage word under the mask `1 << (b AND 7)` (R136): bit 0 under `0x01`. -/
def testMask (word : Byte) (b : U64) : Bool := decide (word &&& ((1 : Byte) <<< (b.toNat % 8)) ≠ 0)

/-- `BitTest(b)` (R136): one byte of BITMEM, read at offset `b >> 3`; `none` for an offset that does not exist (R61). -/
def bitTest (s : State) (b : U64) : Option Bool :=
  if b.toNat / 8 < s.params.bitmemCap then some (testMask (bitmemByte s (b.toNat / 8)) b) else none

/-- INDEX (R135). -/
def execIndex (s : State) : Answer :=
  if s.bitCount = 0 then raise .degen s
  else
    let c := combine s.h1 s.h2 s.round
    complete (s.withIndex c (reduceIndex c s.bitCount))

/-- BITTEST (R138). -/
def execBitTest (s : State) : Answer :=
  if s.valid = false then raise .state s
  else if s.bitCount ≤ s.bitIndex then raise .range s
  else
    match bitTest s s.bitIndex with
    | none => .fault .bitmemOffsetAbsent
    | some r => complete (s.withResult r false)

end Sys2Proof.Machine
end

