-- ==== Sys2Proof/Machine/Contains.lean ====
section
/-! DEFINITION. The membership test, CONTAINS (`spec/42_contains.md`). -/

namespace Sys2Proof.Machine

/-- Step 3 of R151 with `left` rounds still to run, the next of them round `i` (R154): each round leaves COMBINED and
BITINDEX; the first unset bit ends the test with absent, and when no round is left the test ends with present (R155,
R156). -/
def runRounds (h1 h2 : U32) : (left : Nat) → (i : Nat) → State → Answer
  | 0, i, s => complete ({ s with round := BitVec.ofNat 32 i }.withResult true false)
  | left + 1, i, s =>
    let c := combine h1 h2 (BitVec.ofNat 32 i)
    let b := reduceIndex c s.bitCount
    match bitTest s b with
    | none => .fault .bitmemOffsetAbsent
    | some true => runRounds h1 h2 left (i + 1) (s.withIndex c b)
    | some false => complete ({ s.withIndex c b with round := BitVec.ofNat 32 i }.withResult false false)

/-- CONTAINS (R151): the degenerate fallback first (R152), then the key's length, then the base hashes (R153) and the
rounds. -/
def execContains (s : State) : Answer :=
  if s.isDegenerate then complete (s.withResult false true)
  else if keyTooLong s then raise .range s
  else
    let a := baseHash1 (key s)
    let b := baseHash2 (key s)
    runRounds a b s.hashRounds.toNat 0 { s with h1 := a, h2 := b }

end Sys2Proof.Machine
end

