-- ==== Sys2Proof/Machine/Load.lean ====
section
/-! DEFINITION. Establishing and releasing the instance: LOAD, LOADEND, LOADABORT, SEAL, RELEASE
(`spec/43_load_construct.md`). -/

namespace Sys2Proof.Machine

/-- LOAD (R171): opens a load session; accepted only when Open. -/
def execLoad (s : State) : Answer :=
  if s.isOpen then
    complete { s.withHeader 0 0 0 with ldCnt := 0, ldstat := .none, phase := .ldHeader }
  else raise .state s

/-- LOADEND (R177): the byte source has ended. -/
def execLoadEnd (s : State) : Answer :=
  match s.phase with
  | .ldHeader => complete (loadFail .hdrShort s)
  | .ldPayload => complete (loadFail .payloadShort s)
  | .idle => complete s

/-- LOADABORT (R176): the byte source became unreadable. -/
def execLoadAbort (s : State) : Answer :=
  if s.phase ≠ .idle then complete (loadFail .io s) else complete s

/-- SEAL (R180): makes directly written state an instance. -/
def execSeal (s : State) : Answer :=
  if s.isOpen then
    if ceil8 s.bitCount > s.params.bitmemCap then raise .alloc s
    else complete { s with valid := true, ldstat := .none }
  else raise .state s

/-- RELEASE (R181): ends the instance, or clears a candidate; refused with `E_STATE` in a session. -/
def execRelease (s : State) : Answer :=
  if s.phase ≠ .idle then raise .state s
  else complete { (s.withHeader 0 0 0).dropBitmem with valid := false, ldCnt := 0, ldstat := .none }

end Sys2Proof.Machine
end

