-- ==== Sys2Proof/Machine/Dispatch.lean ====
section
/-! DEFINITION. Execution of a command: one arm per command of R92. -/

namespace Sys2Proof.Machine

-- The execution of a decoded command word (R38, R92).
def exec (i : Instr) (s : State) : Host.Outcome State Fault Refusal :=
  match i with
  | .load => Sys2Proof.Machine.execLoad s
  | .loadEnd => Sys2Proof.Machine.execLoadEnd s
  | .loadAbort => Sys2Proof.Machine.execLoadAbort s
  | .sealInstance => Sys2Proof.Machine.execSeal s
  | .release => Sys2Proof.Machine.execRelease s
  | .hash => Sys2Proof.Machine.execHash s
  | .hashPair => Sys2Proof.Machine.execHashPair s
  | .index => Sys2Proof.Machine.execIndex s
  | .bitTest => Sys2Proof.Machine.execBitTest s
  | .contains => Sys2Proof.Machine.execContains s

end Sys2Proof.Machine
end

