-- ==== Sys2Proof/Machine/Ports.lean ====
section
/-! DEFINITION. The host's side of the register map: what a RegRead returns (R20 to R22), what a RegWrite does (R38 to R49,
R172 to R175, R182), and the handling of one event (R71, R77, R79, R230). -/

namespace Sys2Proof.Machine

/-- A KDATA write (R43): stores at KADDR and advances it, or is ignored. -/
def pushKeyByte (v : Byte) (s : State) : State :=
  if s.kAddr.toNat < s.params.keyCap then
    { s with keybuf := Memory.store s.keybuf s.kAddr.toNat v, kAddr := s.kAddr + 1 }
  else s

/-- A BMDATA write (R48): stores at BMADDR and advances it when Open, or is ignored. -/
def pushBitmemByte (v : Byte) (s : State) : State :=
  if s.isOpen ∧ s.bmAddr.toNat < s.params.bitmemCap then
    { s with bitmem := Memory.store s.bitmem s.bmAddr.toNat v, bmAddr := s.bmAddr + 1 }
  else s

/-- `header_checks()` (R174). -/
def headerChecks (s : State) : State :=
  if s.bitCount = 0 then loadFail .empty s
  else if ceil8 s.bitCount > s.params.bitmemCap then loadFail .alloc s
  else { s with phase := .ldPayload }

/-- `entries`, from header bytes 0 to 7 (R97, R173); `d` is `LD_HDR`. -/
def headerEntries (d : Nat → Byte) : U64 := be64 (d 0) (d 1) (d 2) (d 3) (d 4) (d 5) (d 6) (d 7)

/-- `hashRounds`, from header bytes 8 to 11 (R97, R173). -/
def headerHashRounds (d : Nat → Byte) : U32 := be32 (d 8) (d 9) (d 10) (d 11)

/-- `bitCount`, from header bytes 12 to 19 (R97, R173). -/
def headerBitCount (d : Nat → Byte) : U64 := be64 (d 12) (d 13) (d 14) (d 15) (d 16) (d 17) (d 18) (d 19)

/-- `header_complete()` (R173). -/
def headerComplete (s : State) : State :=
  headerChecks (s.withHeader (headerEntries (ldHdrByte s)) (headerHashRounds (ldHdrByte s)) (headerBitCount (ldHdrByte s)))

/-- `load_complete()` (R175): the one step that brings the instance into existence. -/
def loadComplete (s : State) : State := { s with phase := .idle, valid := true, ldstat := .ok }

/-- `LD_HDR[x[LDCNT]] <- d` and the count (R172). -/
def acceptHeaderByte (d : Byte) (s : State) : State :=
  { s with ldHdr := Memory.store s.ldHdr s.ldCnt.toNat d, ldCnt := s.ldCnt + 1 }

/-- `MemWrite(BITMEM, x[LDCNT] - 20, 1, d)` and the count (R172, R68). -/
def acceptPayloadByte (d : Byte) (s : State) : State :=
  { s with bitmem := Memory.store s.bitmem (s.ldCnt.toNat - 20) d, ldCnt := s.ldCnt + 1 }

/-- A STREAM byte in phase LD_HEADER (R172). -/
def headerByte (d : Byte) (s : State) : Answer :=
  if s.ldCnt.toNat < 20 then
    let t := acceptHeaderByte d s
    .next (if t.ldCnt = 20 then headerComplete t else t)
  else .fault .ldHdrIndexAbsent

/-- A STREAM byte in phase LD_PAYLOAD (R172, R68): payload byte `k` goes to BITMEM offset `k`. -/
def payloadByte (d : Byte) (s : State) : Answer :=
  if 20 ≤ s.ldCnt.toNat ∧ s.ldCnt.toNat - 20 < s.params.bitmemCap then
    let t := acceptPayloadByte d s
    .next (if t.ldCnt.toNat = 20 + ceil8 t.bitCount then loadComplete t else t)
  else .fault .bitmemOffsetAbsent

/-- A STREAM write (R172); in phase IDLE the byte is discarded (R182). -/
def streamByte (d : Byte) (s : State) : Answer :=
  match s.phase with
  | .idle => .next s
  | .ldHeader => headerByte d s
  | .ldPayload => payloadByte d s

/-- A CMD write (R38): the low 32 bits are decoded and executed to completion; an illegal word raises `E_ILLEGAL`
(R94). -/
def command (w : U32) (s : State) : Answer :=
  match decode w with
  | some i => exec i s
  | none => raise .illegal s

/-- What a register reads as, zero-extended to 64 bits (R20, R21); CMD, KDATA, BMDATA and STREAM read 0 (R22). -/
def readReg (s : State) : Reg → U64
  | .cmd => 0
  | .status => (statusWord s).setWidth 64
  | .entries => s.entries
  | .hashRounds => s.hashRounds.setWidth 64
  | .bitCount => s.bitCount
  | .keyLen => s.keyLen.setWidth 64
  | .kAddr => s.kAddr.setWidth 64
  | .kData => 0
  | .seed => s.seed.setWidth 64
  | .hashOut => s.hashOut.setWidth 64
  | .h1 => s.h1.setWidth 64
  | .h2 => s.h2.setWidth 64
  | .round => s.round.setWidth 64
  | .combined => s.combined.setWidth 64
  | .bitIndex => s.bitIndex
  | .bmAddr => s.bmAddr
  | .bmData => 0
  | .stream => 0
  | .ldCnt => s.ldCnt

/-- A host write to a register (R20 to R22): the low bits of the data are kept; a write to STATUS, HASHOUT, COMBINED or
LDCNT is ignored, and so is one to ENTRIES, HASHROUNDS or BITCOUNT when not Open (R21, R179, R209). -/
def writeReg (r : Reg) (v : U64) (s : State) : Answer :=
  match r with
  | .cmd => command (v.setWidth 32) s
  | .status => .next s
  | .entries => .next (if s.isOpen then { s with entries := v } else s)
  | .hashRounds => .next (if s.isOpen then { s with hashRounds := v.setWidth 32 } else s)
  | .bitCount => .next (if s.isOpen then { s with bitCount := v } else s)
  | .keyLen => .next { s with keyLen := v.setWidth 32 }
  | .kAddr => .next { s with kAddr := v.setWidth 32 }
  | .kData => .next (pushKeyByte (v.setWidth 8) s)
  | .seed => .next { s with seed := v.setWidth 32 }
  | .hashOut => .next s
  | .h1 => .next { s with h1 := v.setWidth 32 }
  | .h2 => .next { s with h2 := v.setWidth 32 }
  | .round => .next { s with round := v.setWidth 32 }
  | .combined => .next s
  | .bitIndex => .next { s with bitIndex := v }
  | .bmAddr => .next { s with bmAddr := v }
  | .bmData => .next (pushBitmemByte (v.setWidth 8) s)
  | .stream => streamByte (v.setWidth 8) s
  | .ldCnt => .next s

/-- `RegRead(n)` (R20): the data goes to the host and nothing else changes (R22, R75); an unimplemented number reads 0
(R21). -/
def hostRead (n : Nat) (s : State) : State :=
  { s with outbox := ((decodeReg n).map (readReg s)).getD 0 :: s.outbox }

/-- `RegWrite(n, v)` (R20); a write to an unimplemented number is ignored (R21). -/
def hostWrite (n : Nat) (v : U64) (s : State) : Answer :=
  match decodeReg n with
  | some r => writeReg r v s
  | none => .next s

/-- One register transaction (R20). -/
def transact (t : Transaction) (s : State) : Answer :=
  match t with
  | .read n => .next (hostRead n s)
  | .write n v => hostWrite n v s

/-- An access carried by the platform (R71, R77): in the block's region and one aligned 64-bit transaction, it is the
register transaction at its offset; otherwise it is refused by name. -/
def busAccess (a : BusAccess) (s : State) : Answer :=
  if a.inRegion s.params.regBase then
    match decodeAccess s.params.regBase a with
    | some t => transact t s
    | none => .refused .accessNotARegisterTransaction
  else .refused .accessOutsideRegion

/-- One event of the host's total order (R79, R231). -/
def handle (e : HostEvent) (s : State) : Answer :=
  match e with
  | .transaction t => transact t s
  | .bus a => busAccess a s
  | .reset => .next (applyReset s)

/-- The next event is taken from the inbox and handled to completion (R74, R79); an idle block holds its state (R212). -/
def handleNext (s : State) : Answer :=
  match s.inbox with
  | [] => .next s
  | e :: rest => handle e { s with inbox := rest }

/-- A CMD write of a command word numbered as `spec/opcode_table.json` numbers it, the bits above `nbits` 0 (R38). -/
def cmdWrite (nbits w : Nat) : HostEvent := .transaction (.write 0 (BitVec.ofNat 64 (w % 2 ^ nbits)))

end Sys2Proof.Machine
end

