-- ==== Sys2Proof/Machine/Step.lean ====
section
/-! DEFINITION. One step: one event of the host, handled to completion (R74, R79). -/

namespace Sys2Proof.Machine

/-- The step: the block fetches nothing (R31, R82); what comes next is the host's next event, first in `inbox`. -/
def step (s : State) : Host.Outcome State Fault Refusal := handleNext s

/-- The state with a CMD write of the word placed where the step takes its next event: first in `inbox` (log entry 4). -/
def State.withFetchWord (s : State) (nbits w : Nat) : State := { s with inbox := cmdWrite nbits w :: s.inbox }

end Sys2Proof.Machine
end

