-- ==== Sys2Proof/Safety.lean ====
section
/-! DEFINITION. What counts as a safe state: the invariants of R50, with the canonical forms and bounds of the memories. -/

namespace Sys2Proof.Machine

/-- A memory lists no offset at or above its size (R60, R46). -/
def Memory.below (size : Nat) (m : Memory) : Prop := ∀ c ∈ m, c.1 < size

/-- The invariant of every reachable state (R50 items 1, 2, 3, 5; item 4 is a statement about two states, item 6 holds of
`statusWord` in every state), with the ranges of R7, the canonical forms of the memories, their sizes (R60, R46), and
what R46 says of the header buffer: byte `k` of the stream is stored at `LD_HDR[k]`. -/
structure State.Inv (s : State) : Prop where
  params_wellFormed : s.params.wellFormed = true
  bitmem_wf : Memory.wf s.bitmem
  keybuf_wf : Memory.wf s.keybuf
  ldHdr_wf : Memory.wf s.ldHdr
  bitmem_bounded : Memory.below s.params.bitmemCap s.bitmem
  keybuf_bounded : Memory.below s.params.keyCap s.keybuf
  ldHdr_bounded : Memory.below 20 s.ldHdr
  /-- R50 item 1. -/
  instance_fits : s.valid = true → s.phase = .idle ∧ ceil8 s.bitCount ≤ s.params.bitmemCap
  /-- R50 item 2. -/
  payload_phase : s.phase = .ldPayload → 0 < s.bitCount.toNat ∧ ceil8 s.bitCount ≤ s.params.bitmemCap ∧
    20 ≤ s.ldCnt.toNat ∧ s.ldCnt.toNat < 20 + ceil8 s.bitCount
  /-- R50 item 3. -/
  header_phase : s.phase = .ldHeader → s.ldCnt.toNat < 20 ∧ s.entries = 0 ∧ s.hashRounds = 0 ∧ s.bitCount = 0
  /-- R46: the header bytes accepted so far are stored. -/
  header_stored : s.phase = .ldHeader → ∀ k < s.ldCnt.toNat, (Memory.lookup s.ldHdr k).isSome = true
  /-- R50 item 5. -/
  loaded_instance : s.ldstat = .ok → s.valid = true ∧ 0 < s.bitCount.toNat

/-- Every byte a load has delivered is written: during the payload the bytes accepted so far, and of a loaded instance the
whole buffer (U1: "A loaded instance never contains such bytes"). -/
structure State.LoadedBytesWritten (s : State) : Prop where
  during_payload : s.phase = .ldPayload → ∀ k < s.ldCnt.toNat - 20, (Memory.lookup s.bitmem k).isSome = true
  after_load : s.ldstat = .ok → ∀ k < ceil8 s.bitCount, (Memory.lookup s.bitmem k).isSome = true

/-- The command an event executes, if it is a CMD write of a command word (R38, R93). -/
def commandOf (base : Nat) (e : HostEvent) : Option Instr :=
  match e.resolve base with
  | some (.write 0 v) => decode (v.setWidth 32)
  | _ => none

/-- The event is a host write to the register `r` (R20, R21). -/
def writesTo (base : Nat) (r : Reg) (e : HostEvent) : Bool :=
  match e.resolve base with
  | some (.write n _) => decide (decodeReg n = some r)
  | _ => false

end Sys2Proof.Machine
end

