-- ==== Sys2Proof/Certificates/Slice0/Obligations.lean ====
section
/-! DEFINITION. The statements for the provers. Each says which rule of spec/ it formalises. -/

open Sys2Proof Sys2Proof.Machine

namespace Sys2Proof.Slice0

/-- `RegWrite(n, v)` as an event of the host (R20). -/
def wr (n : Nat) (v : U64) : HostEvent := .transaction (.write n v)

/-- `RegRead(n)` as an event of the host (R20). -/
def rd (n : Nat) : HostEvent := .transaction (.read n)

/-- The STREAM writes that deliver bytes (R49, R99). -/
def streamOf (bytes : List Byte) : List HostEvent := bytes.map fun b => wr 17 (b.setWidth 64)

/-- The host events run one by one on a state whose inbox held nothing else. -/
def runHost (events : List HostEvent) (s : State) : Answer :=
  Host.Core.run Sys2Proof.core events.length { s with inbox := events ++ s.inbox }

/-- A natural number as bytes, most significant first (R65). -/
def bigEndian (count : Nat) (value : Nat) : List Byte :=
  (List.range count).map fun k => BitVec.ofNat 8 (value / 2 ^ (8 * (count - 1 - k)))

/-- The 20 header bytes of the load stream (R97). -/
def headerBytes (entries : U64) (hashRounds : U32) (bitCount : U64) : List Byte :=
  bigEndian 8 entries.toNat ++ bigEndian 4 hashRounds.toNat ++ bigEndian 8 bitCount.toNat

/-- R117 by index: the accumulator after the first `groups` groups (R111, R112, R113). -/
def accAfter (data : List Byte) (seed : U32) : Nat → U32
  | 0 => seed ^^^ BitVec.ofNat 32 data.length
  | j + 1 =>
    let w0 : U32 := BitVec.ofNat 32 ((data.getD (4 * j) 0).toNat + (data.getD (4 * j + 1) 0).toNat * 2 ^ 8
      + (data.getD (4 * j + 2) 0).toNat * 2 ^ 16 + (data.getD (4 * j + 3) 0).toNat * 2 ^ 24)
    let w1 := w0 * 0x5bd1e995
    let w2 := w1 ^^^ (w1 >>> 24)
    let w3 := w2 * 0x5bd1e995
    (accAfter data seed j * 0x5bd1e995) ^^^ w3

/-- R117 by index, as its pseudocode is written: groups, tail (R114), finish (R115). -/
def seededHashByIndex (data : List Byte) (seed : U32) : U32 :=
  let n := data.length
  let t := 4 * (n / 4)
  let rem := n % 4
  let a0 := accAfter data seed (n / 4)
  let a1 := if rem ≥ 3 then a0 ^^^ ((data.getD (t + 2) 0).setWidth 32 <<< 16) else a0
  let a2 := if rem ≥ 2 then a1 ^^^ ((data.getD (t + 1) 0).setWidth 32 <<< 8) else a1
  let a3 := if rem ≥ 1 then (a2 ^^^ (data.getD t 0).setWidth 32) * 0x5bd1e995 else a2
  let a4 := a3 ^^^ (a3 >>> 13)
  let a5 := a4 * 0x5bd1e995
  a5 ^^^ (a5 >>> 15)

/-- `combined` of round `i` for the key in the key buffer (R151, R153). -/
def roundCombined (s : State) (i : Nat) : U32 :=
  seededHash (key s) 42 + BitVec.ofNat 32 i * seededHash (key s) (seededHash (key s) 42)

/-- `bitIndex` of round `i` for the key in the key buffer (R151, R133), over the naturals. -/
def roundIndex (s : State) (i : Nat) : Nat := (roundCombined s i).toInt.natAbs % s.bitCount.toNat

/-- The bit that round `i` tests (R67, R136). -/
def roundBit (s : State) (i : Nat) : Bool := (bitmemByte s (roundIndex s i / 8)).getLsbD (roundIndex s i % 8)

/-- The registers a command may write besides STATUS: the rows of R30 with a `w`. -/
def writtenRegs : Instr → List Reg
  | .load | .release => [.entries, .hashRounds, .bitCount, .ldCnt]
  | .loadEnd | .loadAbort => [.entries, .hashRounds, .bitCount]
  | .sealInstance | .bitTest => []
  | .hash => [.hashOut]
  | .hashPair => [.h1, .h2]
  | .index => [.combined, .bitIndex]
  | .contains => [.h1, .h2, .round, .combined, .bitIndex]

/-- The commands after which BITMEM may be unspecified: the rows of R30 with "unspec.". -/
def dropsBitmem : Instr → Bool
  | .loadEnd | .loadAbort | .release => true
  | .load | .sealInstance | .hash | .hashPair | .index | .bitTest | .contains => false

/-- The host-writable registers that are plain stores at any time, with their widths (R21, R75). -/
def plainWidth : Reg → Option Nat
  | .keyLen | .kAddr | .seed | .h1 | .h2 | .round => some 32
  | .bitIndex | .bmAddr => some 64
  | _ => none

/-- The instance registers, plain stores when Open only, with their widths (R21, R179). -/
def openWidth : Reg → Option Nat
  | .hashRounds => some 32
  | .entries | .bitCount => some 64
  | _ => none

end Sys2Proof.Slice0

open Sys2Proof.Slice0

/-! ## Encoding -/

/-- R92, R93, R100: a word is a command exactly when it is that command's full word; every other word decodes to
nothing. -/
def Obligations.WordDecodesExactlyToItsCommand : Prop :=
  ∀ (w : U32) (i : Instr), decode w = some i ↔ w = encode i

/-- R92: the ten full command words, written out. -/
def Obligations.TenWordsDecode : Prop :=
  decode 0x00000001 = some .load ∧ decode 0x00000002 = some .loadEnd ∧ decode 0x00000003 = some .loadAbort ∧
  decode 0x00000004 = some .sealInstance ∧ decode 0x00000005 = some .release ∧ decode 0x00000010 = some .hash ∧
  decode 0x00000011 = some .hashPair ∧ decode 0x00000012 = some .index ∧ decode 0x00000013 = some .bitTest ∧
  decode 0x00000014 = some .contains

/-- R94: exactly the words with a bit of 31:8 set or an opcode outside the table are illegal; a CMD write of one sets ERR to
`E_ILLEGAL` (6) and changes nothing else. -/
def Obligations.IllegalWordSetsOnlyErr : Prop :=
  (∀ w : U32, decode w = none ↔ w.toNat / 256 ≠ 0 ∨
    w.toNat % 256 ∉ [0x01, 0x02, 0x03, 0x04, 0x05, 0x10, 0x11, 0x12, 0x13, 0x14]) ∧
  (∀ (s : State) (rest : List HostEvent) (v : U64), s.inbox = wr 0 v :: rest →
    ((v.setWidth 32).toNat / 256 ≠ 0 ∨
      (v.setWidth 32).toNat % 256 ∉ [0x01, 0x02, 0x03, 0x04, 0x05, 0x10, 0x11, 0x12, 0x13, 0x14]) →
    step s = .next { s with inbox := rest, err := .illegal }) ∧
  Err.illegal.code = 6

/-! ## The step -/

/-- R38, R79: a CMD write whose low 32 bits decode to a command runs exactly that command, on the state with the event
taken from the inbox; one that decodes to nothing sets ERR and does nothing else; bits 63:32 of the data play no part, and
CMD reads 0. -/
def Obligations.StepRunsTheDecodedCommand : Prop :=
  (∀ (s : State) (rest : List HostEvent) (v : U64) (i : Instr), s.inbox = wr 0 v :: rest →
    decode (v.setWidth 32) = some i → step s = exec i { s with inbox := rest }) ∧
  (∀ (s : State) (rest : List HostEvent) (v : U64), s.inbox = wr 0 v :: rest → decode (v.setWidth 32) = none →
    step s = .next { s with inbox := rest, err := .illegal }) ∧
  (∀ (s : State) (rest : List HostEvent) (v v' : U64), v.setWidth 32 = v'.setWidth 32 →
    step { s with inbox := wr 0 v :: rest } = step { s with inbox := wr 0 v' :: rest }) ∧
  (∀ s : State, readReg s .cmd = 0)

/-- Log entry 4: the word that `withFetchWord` places is the one the next step runs. -/
def Obligations.PlacedWordRuns : Prop :=
  ∀ (s : State) (w : Nat) (i : Instr), decodeTableWord 32 w = some i → step (s.withFetchWord 32 w) = exec i s

/-- R79, R212: events are handled one at a time in the order of the inbox; an idle block holds its state. -/
def Obligations.StepHandlesOneEvent : Prop :=
  (∀ s : State, s.inbox = [] → step s = .next s) ∧
  (∀ (s : State) (e : HostEvent) (rest : List HostEvent), s.inbox = e :: rest →
    step s = handle e { s with inbox := rest })

/-! ## Reset -/

/-- R51: after reset every register reads 0, the phase is IDLE, every byte of the three memories is the free value, the
block is Open, and CONTAINS answers absent through the degenerate fallback. The epochs of the free values are the model's
(log entries 2 and 3), and so are the parameters of `State.reset` (log entry 1). -/
def Obligations.ResetLeavesTheBlockOpenAndEmpty : Prop :=
  (∀ (p : Params), (∀ r : Reg, readReg (State.resetWith p) r = 0) ∧ (State.resetWith p).phase = .idle ∧
    (∀ k, bitmemByte (State.resetWith p) k = Config.freeByte .bitmem (State.resetWith p).bitmemEpoch k) ∧
    (∀ k, keybufByte (State.resetWith p) k = Config.freeByte .keybuf (State.resetWith p).resetEpoch k) ∧
    (∀ k, ldHdrByte (State.resetWith p) k = Config.freeByte .ldHdr (State.resetWith p).resetEpoch k) ∧
    (State.resetWith p).isOpen = true ∧
    ∃ t, exec .contains (State.resetWith p) = .next t ∧ t.result = false ∧ t.degen = true ∧ t.err = .ok) ∧
  State.reset = State.resetWith Config.params

/-- R230, R231, with log entries 3 and 6: the reset event puts every register to 0 and the phase to IDLE in any state, makes
every byte of the three memories a new free value, and keeps only the parameters and the host's side of the interface. -/
def Obligations.ResetEventClearsTheBlock : Prop :=
  ∀ (s : State) (rest : List HostEvent), s.inbox = .reset :: rest →
    ∃ t, step s = .next t ∧ (∀ r : Reg, readReg t r = 0) ∧ t.phase = .idle ∧ t.isOpen = true ∧
      (∀ k, bitmemByte t k = Config.freeByte .bitmem (s.bitmemEpoch + 1) k) ∧
      (∀ k, keybufByte t k = Config.freeByte .keybuf (s.resetEpoch + 1) k) ∧
      (∀ k, ldHdrByte t k = Config.freeByte .ldHdr (s.resetEpoch + 1) k) ∧
      t.params = s.params ∧ t.inbox = rest ∧ t.outbox = s.outbox

/-! ## Establishing and releasing the instance -/

/-- R171: LOAD, accepted only when Open; its example from reset. -/
def Obligations.LoadOpensASessionOnlyWhenOpen : Prop :=
  (∀ s : State, s.phase = .idle → s.valid = false →
    exec .load s = .next { s with entries := 0, hashRounds := 0, bitCount := 0, ldCnt := 0, ldstat := .none,
                                  phase := .ldHeader, err := .ok }) ∧
  (∀ s : State, s.phase ≠ .idle ∨ s.valid = true → exec .load s = .next { s with err := .state }) ∧
  encode .load = 0x00000001 ∧ Err.state.code = 7 ∧
  (∀ (p : Params) (t : State), exec .load (State.resetWith p) = .next t → statusWord t = 0x00000002)

/-- R177, R178: LOADEND in the three phases. BITMEM's unspecified content is the empty list under a new epoch (the model's
form, log entries 2 and 3). -/
def Obligations.LoadEndEndsTheSession : Prop :=
  (∀ s : State, s.phase = .ldHeader →
    exec .loadEnd s = .next { s with phase := .idle, entries := 0, hashRounds := 0, bitCount := 0,
                                     ldstat := .hdrShort, bitmem := [], bitmemEpoch := s.bitmemEpoch + 1,
                                     err := .ok }) ∧
  (∀ s : State, s.phase = .ldPayload →
    exec .loadEnd s = .next { s with phase := .idle, entries := 0, hashRounds := 0, bitCount := 0,
                                     ldstat := .payloadShort, bitmem := [], bitmemEpoch := s.bitmemEpoch + 1,
                                     err := .ok }) ∧
  (∀ s : State, s.phase = .idle → exec .loadEnd s = .next { s with err := .ok }) ∧
  encode .loadEnd = 0x00000002 ∧ LdStat.hdrShort.code = 2 ∧ LdStat.payloadShort.code = 4

/-- R176, R178: LOADABORT in a session and outside one. BITMEM's unspecified content is the empty list under a new epoch
(the model's form, log entries 2 and 3). -/
def Obligations.LoadAbortFailsTheSession : Prop :=
  (∀ s : State, s.phase ≠ .idle →
    exec .loadAbort s = .next { s with phase := .idle, entries := 0, hashRounds := 0, bitCount := 0, ldstat := .io,
                                       bitmem := [], bitmemEpoch := s.bitmemEpoch + 1, err := .ok }) ∧
  (∀ s : State, s.phase = .idle → exec .loadAbort s = .next { s with err := .ok }) ∧
  encode .loadAbort = 0x00000003 ∧ LdStat.io.code = 1

/-- R180: SEAL, its two errors in order, and its effect; a `bitCount` of 0 or `hashRounds` of 0 is accepted; the
STATUS of its example. -/
def Obligations.SealMakesTheInstance : Prop :=
  (∀ s : State, s.phase ≠ .idle ∨ s.valid = true → exec .sealInstance s = .next { s with err := .state }) ∧
  (∀ s : State, s.phase = .idle → s.valid = false → s.params.bitmemCap < ceil8 s.bitCount →
    exec .sealInstance s = .next { s with err := .alloc }) ∧
  (∀ s : State, s.phase = .idle → s.valid = false → ceil8 s.bitCount ≤ s.params.bitmemCap →
    exec .sealInstance s = .next { s with valid := true, ldstat := .none, err := .ok }) ∧
  (∀ s t : State, statusWord s = 0 → s.bitCount = 8 → 1 ≤ s.params.bitmemCap → exec .sealInstance s = .next t →
    statusWord t = 0x00000001) ∧
  ceil8 0 = 0 ∧ encode .sealInstance = 0x00000004 ∧ Err.state.code = 7 ∧ Err.alloc.code = 5

/-- R181: RELEASE, refused in a session; otherwise it clears the instance, and BITMEM becomes unspecified
(in the model's form, log entries 2 and 3). -/
def Obligations.ReleaseClearsTheInstance : Prop :=
  (∀ s : State, s.phase ≠ .idle → exec .release s = .next { s with err := .state }) ∧
  (∀ s : State, s.phase = .idle →
    exec .release s = .next { s with valid := false, entries := 0, hashRounds := 0, bitCount := 0, ldCnt := 0,
                                     ldstat := .none, bitmem := [], bitmemEpoch := s.bitmemEpoch + 1, err := .ok }) ∧
  (∀ (s t : State), s.phase = .idle → exec .release s = .next t →
    t.isOpen = true ∧ ∀ k, bitmemByte t k = Config.freeByte .bitmem (s.bitmemEpoch + 1) k) ∧
  encode .release = 0x00000005

/-- R182: in phase IDLE a STREAM write changes nothing at all. -/
def Obligations.StreamIsDiscardedWhenIdle : Prop :=
  ∀ (s : State) (rest : List HostEvent) (v : U64), s.phase = .idle → s.inbox = wr 17 v :: rest →
    step s = .next { s with inbox := rest }

/-- R172, R173, R174: a header byte is stored at `LD_HDR[LDCNT]`; the 20th makes the three header fields from the bytes in
big-endian order and then fails with `E_EMPTY` or `E_ALLOC` or opens the payload phase. A failed
load's BITMEM is in the model's form (log entries 2 and 3). -/
def Obligations.HeaderBytesMakeTheHeader : Prop :=
  (∀ (s : State) (v : U64), s.phase = .ldHeader → s.ldCnt.toNat < 19 →
    ∃ t, hostWrite 17 v s = .next t ∧ t.ldCnt.toNat = s.ldCnt.toNat + 1 ∧
      ldHdrByte t s.ldCnt.toNat = v.setWidth 8 ∧ (∀ k, k ≠ s.ldCnt.toNat → ldHdrByte t k = ldHdrByte s k) ∧
      t = { s with ldHdr := t.ldHdr, ldCnt := t.ldCnt }) ∧
  (∀ (s : State) (v : U64) (d : Nat → Byte), s.phase = .ldHeader → s.ldCnt.toNat = 19 →
    (∀ k, d k = if k = 19 then v.setWidth 8 else ldHdrByte s k) →
    ∃ (t : State) (e : U64) (h : U32) (n : U64), hostWrite 17 v s = .next t ∧
      e = be64 (d 0) (d 1) (d 2) (d 3) (d 4) (d 5) (d 6) (d 7) ∧ h = be32 (d 8) (d 9) (d 10) (d 11) ∧
      n = be64 (d 12) (d 13) (d 14) (d 15) (d 16) (d 17) (d 18) (d 19) ∧ t.ldCnt = 20 ∧
      (n = 0 → t = { s with ldHdr := t.ldHdr, ldCnt := 20, phase := .idle, entries := 0, hashRounds := 0,
                            bitCount := 0, ldstat := .empty, bitmem := [], bitmemEpoch := s.bitmemEpoch + 1 }) ∧
      (n ≠ 0 → s.params.bitmemCap < ceil8 n →
        t = { s with ldHdr := t.ldHdr, ldCnt := 20, phase := .idle, entries := 0, hashRounds := 0, bitCount := 0,
                     ldstat := .alloc, bitmem := [], bitmemEpoch := s.bitmemEpoch + 1 }) ∧
      (n ≠ 0 → ceil8 n ≤ s.params.bitmemCap →
        t = { s with ldHdr := t.ldHdr, ldCnt := 20, phase := .ldPayload, entries := e, hashRounds := h,
                     bitCount := n }) ∧
      (∀ k, ldHdrByte t k = d k)) ∧
  LdStat.empty.code = 3 ∧ LdStat.alloc.code = 5

/-- R172, R175, R68: a payload byte goes unchanged to BITMEM offset LDCNT - 20, every other byte stays, and the byte that
completes the payload, and no other, makes the instance. -/
def Obligations.PayloadBytesFillBitmem : Prop :=
  ∀ (s : State) (v : U64), s.phase = .ldPayload → 20 ≤ s.ldCnt.toNat → ceil8 s.bitCount ≤ s.params.bitmemCap →
    s.ldCnt.toNat < 20 + ceil8 s.bitCount →
    ∃ t, hostWrite 17 v s = .next t ∧ t.ldCnt.toNat = s.ldCnt.toNat + 1 ∧
      bitmemByte t (s.ldCnt.toNat - 20) = v.setWidth 8 ∧
      (∀ k, k ≠ s.ldCnt.toNat - 20 → bitmemByte t k = bitmemByte s k) ∧
      (s.ldCnt.toNat + 1 < 20 + ceil8 s.bitCount → t = { s with bitmem := t.bitmem, ldCnt := t.ldCnt }) ∧
      (s.ldCnt.toNat + 1 = 20 + ceil8 s.bitCount →
        t = { s with bitmem := t.bitmem, ldCnt := t.ldCnt, phase := .idle, valid := true, ldstat := .ok }) ∧
      LdStat.ok.code = 15

/-- R13: the packing functions over the naturals. -/
def Obligations.PackingFunctionsAddUp : Prop :=
  (∀ b0 b1 b2 b3 b4 b5 b6 b7 : Byte, (be64 b0 b1 b2 b3 b4 b5 b6 b7).toNat =
    b0.toNat * 2 ^ 56 + b1.toNat * 2 ^ 48 + b2.toNat * 2 ^ 40 + b3.toNat * 2 ^ 32 + b4.toNat * 2 ^ 24 +
    b5.toNat * 2 ^ 16 + b6.toNat * 2 ^ 8 + b7.toNat) ∧
  (∀ b0 b1 b2 b3 : Byte, (be32 b0 b1 b2 b3).toNat =
    b0.toNat * 2 ^ 24 + b1.toNat * 2 ^ 16 + b2.toNat * 2 ^ 8 + b3.toNat) ∧
  (∀ b0 b1 b2 b3 : Byte, (le32 b0 b1 b2 b3).toNat =
    b0.toNat + b1.toNat * 2 ^ 8 + b2.toNat * 2 ^ 16 + b3.toNat * 2 ^ 24)

/-- R12: `ceil8` is the exact ceiling, at most 2^61, and 0 only for 0. -/
def Obligations.CeilingIsExact : Prop :=
  ∀ n : U64, 8 * ceil8 n < n.toNat + 8 ∧ n.toNat ≤ 8 * ceil8 n ∧ ceil8 n ≤ 2 ^ 61 ∧ (ceil8 n = 0 ↔ n = 0)

/-- R97, R170 to R175, R182: from an Open block, LOAD and the bytes of a file (header, payload, any trailing bytes) make
the instance the file describes, with LDSTAT `LD_OK`, and leave the query context as it was. -/
def Obligations.LoadedFileBecomesTheInstance : Prop :=
  ∀ (s : State) (e : U64) (h : U32) (n : U64) (payload trailing : List Byte), s.params.wellFormed = true →
    s.isOpen = true → n ≠ 0 → ceil8 n ≤ s.params.bitmemCap → payload.length = ceil8 n →
    ∃ t, runHost (wr 0 1 :: streamOf (headerBytes e h n ++ payload ++ trailing)) s = .next t ∧
      t.valid = true ∧ t.phase = .idle ∧ t.ldstat = .ok ∧ t.err = .ok ∧ t.entries = e ∧ t.hashRounds = h ∧
      t.bitCount = n ∧ t.ldCnt.toNat = 20 + ceil8 n ∧
      (∀ k, k < payload.length → bitmemByte t k = payload.getD k 0) ∧
      (∀ r ∈ [Reg.keyLen, .kAddr, .seed, .hashOut, .h1, .h2, .round, .combined, .bitIndex, .bmAddr],
        readReg t r = readReg s r) ∧
      t.result = s.result ∧ t.degen = s.degen ∧ (∀ k, keybufByte t k = keybufByte s k) ∧ t.inbox = s.inbox

/-- R177, R178: a file cut short by the end of its source, at whatever byte, fails to load: `E_HDR_SHORT` inside the
header, `E_PAYLOAD_SHORT` inside the payload; no instance is left and LDCNT says where it ended. The
unspecified BITMEM is in the model's form (log entries 2 and 3). -/
def Obligations.TruncatedFileFailsToLoad : Prop :=
  ∀ (s : State) (e : U64) (h : U32) (n : U64) (payload : List Byte) (cut : Nat), s.params.wellFormed = true →
    s.isOpen = true → n ≠ 0 → ceil8 n ≤ s.params.bitmemCap → payload.length = ceil8 n →
    cut < 20 + payload.length →
    ∃ t, runHost (wr 0 1 :: streamOf ((headerBytes e h n ++ payload).take cut) ++ [wr 0 2]) s = .next t ∧
      t.valid = false ∧ t.phase = .idle ∧ t.entries = 0 ∧ t.hashRounds = 0 ∧ t.bitCount = 0 ∧
      t.ldCnt.toNat = cut ∧ t.err = .ok ∧ t.ldstat = (if cut < 20 then .hdrShort else .payloadShort) ∧
      (∀ k, bitmemByte t k = Config.freeByte .bitmem t.bitmemEpoch k)

/-! ## The hash unit -/

/-- R117 (with R110 to R116): the hash unit computes what the rule's pseudocode says, by index. R112 and R114 are
the spec's own readings of its source (D28, D14; log entry 10). For data of 2^32 bytes or more, outside R110's domain (N6), both
sides take the length modulo 2^32: that is the model's choice (log entry 16), and no command evaluates it. -/
def Obligations.SeededHashFollowsThePseudocode : Prop :=
  ∀ (data : List Byte) (seed : U32), seededHash data seed = seededHashByIndex data seed

/-- R118: HASH, its error and its result; its example. -/
def Obligations.HashWritesHashout : Prop :=
  (∀ s : State, s.keyLen.toNat ≤ s.params.keyCap →
    exec .hash s = .next { s with hashOut := seededHash (key s) s.seed, err := .ok }) ∧
  (∀ s : State, s.params.keyCap < s.keyLen.toNat → exec .hash s = .next { s with err := .range }) ∧
  (∀ s : State, s.keyLen = 0 → key s = []) ∧ seededHash [] 42 = 0x10707292 ∧
  encode .hash = 0x00000010 ∧ Err.range.code = 8

/-- R119: HASHPAIR, its error and its results; its examples. The numbers for "hello" rest on the spec's readings D14 and
D28 (log entry 10). -/
def Obligations.HashpairWritesBothBaseHashes : Prop :=
  (∀ s : State, s.keyLen.toNat ≤ s.params.keyCap →
    exec .hashPair s = .next { s with h1 := seededHash (key s) 42,
                                      h2 := seededHash (key s) (seededHash (key s) 42), err := .ok }) ∧
  (∀ s : State, s.params.keyCap < s.keyLen.toNat → exec .hashPair s = .next { s with err := .range }) ∧
  seededHash [0x68, 0x65, 0x6c, 0x6c, 0x6f] 42 = 0x7802f8cc ∧
  seededHash [0x68, 0x65, 0x6c, 0x6c, 0x6f] 0x7802f8cc = 0x7fb36b8d ∧
  seededHash [] 42 = 0x10707292 ∧ seededHash [] 0x10707292 = 0x3705a9ee ∧ encode .hashPair = 0x00000011

/-- R42, R43, R62, R99: the bytes the host writes through KDATA from offset 0 are the key after KEYLEN is written. -/
def Obligations.WrittenBytesAreTheKey : Prop :=
  ∀ (s : State) (bytes : List Byte), s.params.wellFormed = true → bytes.length ≤ s.params.keyCap →
    ∃ t, runHost (wr 6 0 :: bytes.map (fun b => wr 7 (b.setWidth 64)) ++ [wr 5 (BitVec.ofNat 64 bytes.length)]) s
        = .next t ∧ key t = bytes ∧ t.kAddr.toNat = bytes.length ∧ t.keyLen.toNat = bytes.length ∧
      (∀ k, bytes.length ≤ k → keybufByte t k = keybufByte s k) ∧
      t = { s with keybuf := t.keybuf, kAddr := t.kAddr, keyLen := t.keyLen }

/-! ## Bit position and bit test -/

/-- R130, R132 (with R10): the combination wraps modulo 2^32, and the absolute value is that of the pattern read as signed,
2^31 for the most negative one. -/
def Obligations.CombineWrapsAndAbsWidens : Prop :=
  (∀ h1 h2 i : U32, (combine h1 h2 i).toNat = (h1.toNat + i.toNat * h2.toNat) % 2 ^ 32) ∧
  (∀ c : U32, (c.toNat < 0x80000000 → abs64 c = c.toNat) ∧ (0x80000000 ≤ c.toNat → abs64 c = 2 ^ 32 - c.toNat)) ∧
  abs64 0x80000000 = 2147483648

/-- R133, R76: the bit index is `Abs(c) mod bitCount`, below `bitCount` and at most 2^31. -/
def Obligations.BitIndexIsReducedAndBounded : Prop :=
  ∀ (c : U32) (n : U64), n ≠ 0 → (reduceIndex c n).toNat = abs64 c % n.toNat ∧ (reduceIndex c n).toNat < n.toNat ∧
    (reduceIndex c n).toNat ≤ 2 ^ 31

/-- R134: the laws and corner cases of the derivation. The laws of `reduceIndex` for combined 0 and for the sign of combined
hold for `bitCount` 0 too, where R133 and U10 leave the index undefined: what they say there is the model's own value (log
entry 14), which no command evaluates. -/
def Obligations.DerivationCornerCases : Prop :=
  (∀ h1 h2 : U32, combine h1 h2 0 = h1) ∧ (∀ h1 i : U32, combine h1 0 i = h1) ∧
  combine 0x7fffffff 1 1 = 0x80000000 ∧ (0x80000000 : U32).toInt = -2147483648 ∧ abs64 0x80000000 = 2147483648 ∧
  combine 1 0xffffffff 2 = 0xffffffff ∧ (0xffffffff : U32).toInt = -1 ∧ abs64 0xffffffff = 1 ∧
  (3 : U32) * 0x7fffffff = 0x7ffffffd ∧ combine 0x7fffffff 0x7fffffff 3 = 0xfffffffc ∧ abs64 0xfffffffc = 4 ∧
  abs64 0 = 0 ∧ (∀ n : U64, reduceIndex 0 n = 0) ∧ (∀ c : U32, reduceIndex c 1 = 0) ∧
  (∀ (c : U32) (n : U64), 2 ^ 31 < n.toNat → (reduceIndex c n).toNat = abs64 c) ∧
  (∀ c : U32, abs64 (-c) = abs64 c) ∧ (∀ (c : U32) (n : U64), reduceIndex (-c) n = reduceIndex c n)

/-- R135: INDEX, its error and its results. -/
def Obligations.IndexWritesCombinedAndBitindex : Prop :=
  (∀ s : State, s.bitCount = 0 → exec .index s = .next { s with err := .degen }) ∧
  (∀ s : State, s.bitCount ≠ 0 → exec .index s = .next { s with
    combined := s.h1 + s.round * s.h2,
    bitIndex := BitVec.ofNat 64 ((s.h1 + s.round * s.h2).toInt.natAbs % s.bitCount.toNat),
    err := .ok }) ∧
  (0x7802f8cc : U32) + 1 * 0x7fb36b8d = 0xf7b66459 ∧ (0xf7b66459 : U32).toInt = -139041703 ∧ 139041703 % 64 = 39 ∧
  encode .index = 0x00000012 ∧ Err.degen.code = 9

/-- R136, R67: the bit test reads bit `b mod 8`, least significant first, of the one byte at offset `b div 8`. -/
def Obligations.BitTestReadsLeastSignificantFirst : Prop :=
  ∀ (s : State) (b : U64), b.toNat / 8 < s.params.bitmemCap →
    bitTest s b = some ((bitmemByte s (b.toNat / 8)).getLsbD (b.toNat % 8))

/-- R138: BITTEST, its two errors in order, and its result, in every state whose instance fits BITMEM (R50 item 1); its
example. -/
def Obligations.BittestWritesResult : Prop :=
  (∀ s : State, s.valid = false → exec .bitTest s = .next { s with err := .state }) ∧
  (∀ s : State, s.valid = true → s.bitCount.toNat ≤ s.bitIndex.toNat →
    exec .bitTest s = .next { s with err := .range }) ∧
  (∀ s : State, s.valid = true → s.bitIndex.toNat < s.bitCount.toNat → ceil8 s.bitCount ≤ s.params.bitmemCap →
    exec .bitTest s = .next { s with
      result := (bitmemByte s (s.bitIndex.toNat / 8)).getLsbD (s.bitIndex.toNat % 8), degen := false, err := .ok }) ∧
  (∀ s : State, s.valid = true → s.bitCount = 8 → 1 ≤ s.params.bitmemCap → bitmemByte s 0 = 0x01 →
    s.bitIndex.toNat < 8 →
    exec .bitTest s = .next { s with result := decide (s.bitIndex = 0), degen := false, err := .ok }) ∧
  encode .bitTest = 0x00000013 ∧ Err.state.code = 7 ∧ Err.range.code = 8

/-! ## The membership test -/

/-- R152: the degenerate fallback, for every key and every KEYLEN; nothing but RESULT, DEGEN and ERR is written. -/
def Obligations.DegenerateContainsAnswersAbsent : Prop :=
  ∀ s : State, s.valid = false ∨ s.bitCount = 0 ∨ s.hashRounds = 0 →
    exec .contains s = .next { s with result := false, degen := true, err := .ok }

/-- R150, R151: a key longer than the key buffer ends a non-degenerate CONTAINS with `E_RANGE`; nothing but ERR changes. -/
def Obligations.OversizedKeyEndsContains : Prop :=
  ∀ s : State, s.valid = true → s.bitCount ≠ 0 → s.hashRounds ≠ 0 → s.params.keyCap < s.keyLen.toNat →
    exec .contains s = .next { s with err := .range }

/-- R151, R153 to R156: a non-degenerate CONTAINS completes; it passes some number of rounds, stops at the first unset bit
or after the last round, and leaves H1, H2, ROUND, COMBINED, BITINDEX, RESULT, DEGEN and ERR as the rules say. -/
def Obligations.ContainsRunsTheRounds : Prop :=
  ∀ s : State, s.valid = true → s.bitCount ≠ 0 → s.hashRounds ≠ 0 → s.keyLen.toNat ≤ s.params.keyCap →
    ceil8 s.bitCount ≤ s.params.bitmemCap →
    ∃ passed last : Nat, passed ≤ s.hashRounds.toNat ∧ (∀ j, j < passed → roundBit s j = true) ∧
      (passed < s.hashRounds.toNat → roundBit s passed = false ∧ last = passed) ∧
      (passed = s.hashRounds.toNat → last = passed - 1) ∧
      exec .contains s = .next { s with
        h1 := seededHash (key s) 42
        h2 := seededHash (key s) (seededHash (key s) 42)
        round := BitVec.ofNat 32 passed
        combined := roundCombined s last
        bitIndex := BitVec.ofNat 64 (roundIndex s last)
        result := decide (passed = s.hashRounds.toNat)
        degen := false
        err := .ok }

/-- R158 item 3: RESULT after CONTAINS is the conjunction of the RESULTs of HASHPAIR; wr ROUND, i; INDEX; BITTEST over all
rounds. -/
def Obligations.ContainsMatchesThePrimitives : Prop :=
  ∀ s : State, s.valid = true → s.bitCount ≠ 0 → s.hashRounds ≠ 0 → s.keyLen.toNat ≤ s.params.keyCap →
    ceil8 s.bitCount ≤ s.params.bitmemCap →
    ∃ t, runHost [wr 0 0x14] s = .next t ∧
      (∀ i, i < s.hashRounds.toNat →
        ∃ u, runHost [wr 0 0x11, wr 12 (BitVec.ofNat 64 i), wr 0 0x12, wr 0 0x13] s = .next u ∧ u.err = .ok ∧
          (t.result = true → u.result = true)) ∧
      (t.result = false → ∃ i, i < s.hashRounds.toNat ∧
        ∃ u, runHost [wr 0 0x11, wr 12 (BitVec.ofNat 64 i), wr 0 0x12, wr 0 0x13] s = .next u ∧ u.result = false)

/-- R158 item 1: CONTAINS depends on the instance, KEYLEN and KEYBUF alone. -/
def Obligations.ContainsDependsOnItsInputsOnly : Prop :=
  ∀ s s' t : State, s.params = s'.params → s.valid = s'.valid → s.hashRounds = s'.hashRounds →
    s.bitCount = s'.bitCount → s.keyLen = s'.keyLen → (∀ k, keybufByte s k = keybufByte s' k) →
    (∀ k, bitmemByte s k = bitmemByte s' k) → exec .contains s = .next t →
    ∃ t', exec .contains s' = .next t' ∧ t'.err = t.err ∧
      (t.err = .ok → t'.result = t.result ∧ t'.degen = t.degen ∧
        (s.isDegenerate = false → t'.h1 = t.h1 ∧ t'.h2 = t.h2 ∧ t'.round = t.round ∧ t'.combined = t.combined ∧
          t'.bitIndex = t.bitIndex))

/-! ## Frames and whole-machine rules -/

/-- R80: the five query commands write nothing of the instance, the load state or the memories. -/
def Obligations.QueriesAreReadOnly : Prop :=
  ∀ (i : Instr) (s t : State), i ∈ [Instr.hash, .hashPair, .index, .bitTest, .contains] → exec i s = .next t →
    t.entries = s.entries ∧ t.hashRounds = s.hashRounds ∧ t.bitCount = s.bitCount ∧ t.valid = s.valid ∧
    t.phase = s.phase ∧ t.ldCnt = s.ldCnt ∧ t.ldstat = s.ldstat ∧ (∀ k, keybufByte t k = keybufByte s k) ∧
    (∀ k, bitmemByte t k = bitmemByte s k)

/-- R30: a command writes no register that its row does not list (STATUS apart), never KEYBUF or `LD_HDR`, BITMEM only
where its row says "unspec.", and nothing of the host's side. -/
def Obligations.CommandsWriteOnlyTheirRow : Prop :=
  ∀ (i : Instr) (s t : State), exec i s = .next t →
    (∀ r : Reg, r ≠ .status → r ∉ writtenRegs i → readReg t r = readReg s r) ∧
    (∀ k, keybufByte t k = keybufByte s k) ∧ (∀ k, ldHdrByte t k = ldHdrByte s k) ∧
    (dropsBitmem i = false → ∀ k, bitmemByte t k = bitmemByte s k) ∧
    t.params = s.params ∧ t.inbox = s.inbox ∧ t.outbox = s.outbox

/-- R206: errors are precise: a command, or an illegal word written to CMD, that does not end with `E_OK` changes nothing
but ERR. -/
def Obligations.ErrorsArePrecise : Prop :=
  (∀ (i : Instr) (s t : State), exec i s = .next t → t.err ≠ .ok → t = { s with err := t.err }) ∧
  (∀ (v : U64) (s t : State), hostWrite 0 v s = .next t → t.err ≠ .ok → t = { s with err := t.err })

/-- R202: which command ends with which ERR, and exactly when. -/
def Obligations.ErrTable : Prop :=
  ∀ (i : Instr) (s t : State), exec i s = .next t → t.err = match i with
    | .load => if s.phase = .idle ∧ s.valid = false then .ok else .state
    | .loadEnd => .ok
    | .loadAbort => .ok
    | .sealInstance =>
      if s.phase = .idle ∧ s.valid = false then
        if s.params.bitmemCap < ceil8 s.bitCount then .alloc else .ok
      else .state
    | .release => if s.phase = .idle then .ok else .state
    | .hash => if s.params.keyCap < s.keyLen.toNat then .range else .ok
    | .hashPair => if s.params.keyCap < s.keyLen.toNat then .range else .ok
    | .index => if s.bitCount = 0 then .degen else .ok
    | .bitTest => if s.valid = false then .state else if s.bitCount.toNat ≤ s.bitIndex.toNat then .range else .ok
    | .contains =>
      if s.valid = true ∧ s.bitCount ≠ 0 ∧ s.hashRounds ≠ 0 ∧ s.params.keyCap < s.keyLen.toNat then .range else .ok

/-- R37: nothing but a CMD write (and reset) writes ERR. -/
def Obligations.ErrIsWrittenByCmdOnly : Prop :=
  ∀ (s t : State) (e : HostEvent) (rest : List HostEvent), s.inbox = e :: rest → e ≠ .reset →
    writesTo s.params.regBase .cmd e = false → step s = .next t → t.err = s.err

/-- R36: RESULT and DEGEN are written by BITTEST and CONTAINS (and reset) only, and never by a command that ends in error. -/
def Obligations.ResultIsWrittenByTestsOnly : Prop :=
  (∀ (s t : State) (e : HostEvent) (rest : List HostEvent), s.inbox = e :: rest → e ≠ .reset →
    commandOf s.params.regBase e ≠ some .bitTest → commandOf s.params.regBase e ≠ some .contains →
    step s = .next t → t.result = s.result ∧ t.degen = s.degen) ∧
  (∀ (i : Instr) (s t : State), exec i s = .next t → t.err ≠ .ok → t.result = s.result ∧ t.degen = s.degen)

/-- R33, R35, R50 item 6, R20, R200, R201: STATUS reads as its word, zero-extended; the fields stand where the layout says,
the reserved bits are 0, and each field has one of its codes, written out. -/
def Obligations.StatusLayout : Prop :=
  (∀ s : State, readReg s .status = (statusWord s).setWidth 64 ∧
    (statusWord s).getLsbD 0 = s.valid ∧ (statusWord s).extractLsb' 1 2 = s.phase.code ∧
    (statusWord s).getLsbD 3 = s.result ∧ (statusWord s).getLsbD 4 = s.degen ∧
    (statusWord s).extractLsb' 5 3 = 0 ∧ (statusWord s).extractLsb' 8 4 = s.err.code ∧
    (statusWord s).extractLsb' 12 4 = s.ldstat.code ∧ (statusWord s).extractLsb' 16 16 = 0 ∧
    (statusWord s).extractLsb' 1 2 ≠ 3 ∧ (statusWord s).extractLsb' 8 4 ∈ [(0 : BitVec 4), 5, 6, 7, 8, 9] ∧
    (statusWord s).extractLsb' 12 4 ∈ [(0 : BitVec 4), 1, 2, 3, 4, 5, 15]) ∧
  Phase.idle.code = 0 ∧ Phase.ldHeader.code = 1 ∧ Phase.ldPayload.code = 2 ∧
  Err.ok.code = 0 ∧ Err.alloc.code = 5 ∧ Err.illegal.code = 6 ∧ Err.state.code = 7 ∧ Err.range.code = 8 ∧
  Err.degen.code = 9 ∧
  LdStat.none.code = 0 ∧ LdStat.io.code = 1 ∧ LdStat.hdrShort.code = 2 ∧ LdStat.empty.code = 3 ∧
  LdStat.payloadShort.code = 4 ∧ LdStat.alloc.code = 5 ∧ LdStat.ok.code = 15

/-- R45: the transitions of the load phase, and no other. -/
def Obligations.PhaseTransitions : Prop :=
  ∀ (s t : State) (e : HostEvent) (rest : List HostEvent), s.inbox = e :: rest → step s = .next t →
    t.phase ≠ s.phase →
    e = .reset ∨
    (s.phase = .idle ∧ t.phase = .ldHeader ∧ commandOf s.params.regBase e = some .load ∧ t.err = .ok) ∨
    (s.phase = .ldHeader ∧ t.phase = .ldPayload ∧ writesTo s.params.regBase .stream e = true ∧
      s.ldCnt.toNat = 19 ∧ t.ldCnt.toNat = 20 ∧ t.bitCount ≠ 0 ∧ ceil8 t.bitCount ≤ t.params.bitmemCap) ∨
    (s.phase ≠ .idle ∧ t.phase = .idle ∧ t.ldstat ∈ [LdStat.io, .hdrShort, .empty, .payloadShort, .alloc] ∧
      t.entries = 0 ∧ t.hashRounds = 0 ∧ t.bitCount = 0) ∨
    (s.phase = .ldPayload ∧ t.phase = .idle ∧ writesTo s.params.regBase .stream e = true ∧ t.ldstat = .ok ∧
      t.valid = true ∧ t.ldCnt.toNat = 20 + ceil8 t.bitCount)

/-- R34, R50 item 4, R170: while an instance is held, no event but a RELEASE command or reset changes ENTRIES, HASHROUNDS,
BITCOUNT, VALID or any byte of BITMEM. -/
def Obligations.HeldInstanceIsImmutable : Prop :=
  ∀ (s t : State) (e : HostEvent) (rest : List HostEvent), s.Inv → s.valid = true → s.inbox = e :: rest →
    e ≠ .reset → commandOf s.params.regBase e ≠ some .release → step s = .next t →
    t.valid = true ∧ t.entries = s.entries ∧ t.hashRounds = s.hashRounds ∧ t.bitCount = s.bitCount ∧
    ∀ k, bitmemByte t k = bitmemByte s k

/-- R34, R170: an instance comes into being by a SEAL command or by the STREAM byte that completes a payload, and in no
other way. -/
def Obligations.InstanceComesFromSealOrLoad : Prop :=
  ∀ (s t : State) (e : HostEvent) (rest : List HostEvent), s.inbox = e :: rest → s.valid = false → step s = .next t →
    t.valid = true →
    (commandOf s.params.regBase e = some .sealInstance ∧ s.isOpen = true ∧ t.ldstat = .none) ∨
    (writesTo s.params.regBase .stream e = true ∧ s.phase = .ldPayload ∧ t.ldstat = .ok)

/-- R62, R43: KEYBUF is changed by KDATA writes and reset only. -/
def Obligations.KeybufIsWrittenByKdataOnly : Prop :=
  ∀ (s t : State) (e : HostEvent) (rest : List HostEvent), s.inbox = e :: rest → e ≠ .reset →
    writesTo s.params.regBase .kData e = false → step s = .next t → ∀ k, keybufByte t k = keybufByte s k

/-- R7, log entry 1: no step changes the parameters. -/
def Obligations.ParametersNeverChange : Prop :=
  ∀ s t : State, step s = .next t → t.params = s.params

/-! ## The register interface -/

/-- R20, R21, R75, R179: a host write to a plain register keeps the low bits of the data, changes no other register, no
flag and no memory byte; the instance registers take it when Open. -/
def Obligations.PlainWritesStoreTheLowBits : Prop :=
  ∀ (r : Reg) (width : Nat) (v : U64) (s : State),
    (plainWidth r = some width ∨ openWidth r = some width ∧ s.isOpen = true) →
    ∃ t, hostWrite (encodeReg r) v s = .next t ∧ (readReg t r).toNat = v.toNat % 2 ^ width ∧
      (∀ r', r' ≠ r → readReg t r' = readReg s r') ∧ (∀ k, bitmemByte t k = bitmemByte s k) ∧
      (∀ k, keybufByte t k = keybufByte s k) ∧ (∀ k, ldHdrByte t k = ldHdrByte s k) ∧
      t.params = s.params ∧ t.inbox = s.inbox ∧ t.outbox = s.outbox

/-- R209, R22, R21: the accesses that are ignored, each leaving the whole state as it was. That a number from 19 on reads 0 is
R21, which log entry 15 carries to the numbers from 32 on; that the data of a read goes to the outbox is log entry 5. -/
def Obligations.IgnoredWritesChangeNothing : Prop :=
  ∀ (n : Nat) (v : U64) (s : State),
    (decodeReg n ∈ [some Reg.status, some .hashOut, some .combined, some .ldCnt] ∨
      decodeReg n ∈ [some Reg.entries, some .hashRounds, some .bitCount, some .bmData] ∧ s.isOpen = false ∨
      decodeReg n = some .kData ∧ s.params.keyCap ≤ s.kAddr.toNat ∨
      decodeReg n = some .bmData ∧ s.params.bitmemCap ≤ s.bmAddr.toNat ∨
      decodeReg n = some .stream ∧ s.phase = .idle ∨
      19 ≤ n) → hostWrite n v s = .next s ∧
    (19 ≤ n → handle (rd n) s = .next { s with outbox := 0 :: s.outbox })

/-- R20, R21, R22, R75: a RegRead returns the register's value, by its number in the register map and zero-extended; it
returns 0 for CMD, KDATA, BMDATA, STREAM and for every number from 19 on (from 32 on, log entry 15); and it changes nothing.
That the data of a read goes to the outbox is log entry 5. -/
def Obligations.ReadsHaveNoSideEffect : Prop :=
  (∀ (s : State) (rest : List HostEvent) (n : Nat), s.inbox = rd n :: rest →
    ∃ d : U64, step s = .next { s with inbox := rest, outbox := d :: s.outbox } ∧
      (n = 0 → d = 0) ∧
      (n = 1 → d = (statusWord s).setWidth 64) ∧
      (n = 2 → d = s.entries) ∧
      (n = 3 → d = s.hashRounds.setWidth 64) ∧
      (n = 4 → d = s.bitCount) ∧
      (n = 5 → d = s.keyLen.setWidth 64) ∧
      (n = 6 → d = s.kAddr.setWidth 64) ∧
      (n = 7 → d = 0) ∧
      (n = 8 → d = s.seed.setWidth 64) ∧
      (n = 9 → d = s.hashOut.setWidth 64) ∧
      (n = 10 → d = s.h1.setWidth 64) ∧
      (n = 11 → d = s.h2.setWidth 64) ∧
      (n = 12 → d = s.round.setWidth 64) ∧
      (n = 13 → d = s.combined.setWidth 64) ∧
      (n = 14 → d = s.bitIndex) ∧
      (n = 15 → d = s.bmAddr) ∧
      (n = 16 → d = 0) ∧
      (n = 17 → d = 0) ∧
      (n = 18 → d = s.ldCnt) ∧
      (∀ r : Reg, n = encodeReg r → d = readReg s r) ∧ (19 ≤ n → d = 0)) ∧
  (∀ s : State, readReg s .cmd = 0 ∧ readReg s .kData = 0 ∧ readReg s .bmData = 0 ∧ readReg s .stream = 0)

/-- R43: the key window. -/
def Obligations.KdataWritesTheKeyBuffer : Prop :=
  (∀ (s : State) (v : U64), s.params.keyCap ≤ 2 ^ 32 - 1 → s.kAddr.toNat < s.params.keyCap →
    ∃ t, hostWrite 7 v s = .next t ∧ keybufByte t s.kAddr.toNat = v.setWidth 8 ∧
      (∀ k, k ≠ s.kAddr.toNat → keybufByte t k = keybufByte s k) ∧ t.kAddr.toNat = s.kAddr.toNat + 1 ∧
      t = { s with keybuf := t.keybuf, kAddr := t.kAddr }) ∧
  (∀ (s : State) (v : U64), s.params.keyCap ≤ s.kAddr.toNat → hostWrite 7 v s = .next s) ∧
  (∀ s : State, readReg s .kData = 0)

/-- R48: the bit-memory window, open only. -/
def Obligations.BmdataWritesBitmemWhenOpen : Prop :=
  (∀ (s : State) (v : U64), s.params.bitmemCap ≤ 2 ^ 61 → s.phase = .idle → s.valid = false →
    s.bmAddr.toNat < s.params.bitmemCap →
    ∃ t, hostWrite 16 v s = .next t ∧ bitmemByte t s.bmAddr.toNat = v.setWidth 8 ∧
      (∀ k, k ≠ s.bmAddr.toNat → bitmemByte t k = bitmemByte s k) ∧ t.bmAddr.toNat = s.bmAddr.toNat + 1 ∧
      t = { s with bitmem := t.bitmem, bmAddr := t.bmAddr }) ∧
  (∀ (s : State) (v : U64), s.phase ≠ .idle ∨ s.valid = true ∨ s.params.bitmemCap ≤ s.bmAddr.toNat →
    hostWrite 16 v s = .next s) ∧
  (∀ s : State, readReg s .bmData = 0)

/-- R71, R77, log entry 8: register `n` stands at byte offset `8 * n`; an access in the region of another size or alignment
is refused, and so is one outside the region. -/
def Obligations.BusAccessesReachTheirRegister : Prop :=
  (∀ (s : State) (n : Nat), n < 32 →
    handle (.bus ⟨s.params.regBase + 8 * n, 8, none⟩) s = handle (rd n) s) ∧
  (∀ (s : State) (n : Nat) (v : U64), n < 32 →
    handle (.bus ⟨s.params.regBase + 8 * n, 8, some v⟩) s = handle (wr n v) s) ∧
  (∀ (s : State) (a : BusAccess), s.params.regBase ≤ a.addr → a.addr < s.params.regBase + 256 →
    a.bytes ≠ 8 ∨ (a.addr - s.params.regBase) % 8 ≠ 0 →
    handle (.bus a) s = .refused .accessNotARegisterTransaction) ∧
  (∀ (s : State) (a : BusAccess), a.addr < s.params.regBase ∨ s.params.regBase + 256 ≤ a.addr →
    handle (.bus a) s = .refused .accessOutsideRegion)

/-! ## Memory, invariants, faults -/

/-- R11, R61, R62: what a memory lists after a store, and that stores keep the canonical form. -/
def Obligations.StoredByteIsReadBack : Prop :=
  ∀ (m : Memory) (a k : Nat) (v : Byte), Memory.wf m →
    Memory.lookup (Memory.store m a v) k = (if k = a then some v else Memory.lookup m k) ∧
    Memory.wf (Memory.store m a v)

/-- R50, R51: the state after reset meets the invariant, for every choice of the open parameters. -/
def Obligations.ResetMeetsTheInvariant : Prop :=
  (∀ p : Params, p.wellFormed = true → (State.resetWith p).Inv ∧ (State.resetWith p).LoadedBytesWritten) ∧
  State.reset.Inv ∧ State.reset.LoadedBytesWritten

/-- R50 items 1, 2, 3, 5: every step from a state that meets the invariant leads to one that does. -/
def Obligations.StepKeepsTheInvariant : Prop :=
  ∀ s t : State, s.Inv → step s = .next t → t.Inv

/-- U1, R61, R175: no byte of a loaded instance is unspecified, and every step keeps it so. -/
def Obligations.StepKeepsLoadedBytesWritten : Prop :=
  ∀ s t : State, s.Inv → s.LoadedBytesWritten → step s = .next t → t.LoadedBytesWritten

/-- R72, R243: in every state that meets the invariant every register transaction and every command completes, and no event at
all makes the machine fault. -/
def Obligations.TransactionsCompleteWithoutFault : Prop :=
  (∀ (s : State) (f : Fault), s.Inv → step s ≠ .fault f) ∧
  (∀ (s : State) (tr : Transaction) (rest : List HostEvent), s.Inv → s.inbox = .transaction tr :: rest →
    ∃ t, step s = .next t) ∧
  (∀ (s : State) (i : Instr), s.Inv → ∃ t, exec i s = .next t)

/-- Log entry 7: the states the invariant rules out in which a command or a STREAM byte would reach a byte that does not
exist stop with a fault by name. -/
def Obligations.AbsentBytesFault : Prop :=
  (∀ s : State, s.valid = true → s.bitIndex.toNat < s.bitCount.toNat → s.params.bitmemCap ≤ s.bitIndex.toNat / 8 →
    exec .bitTest s = .fault .bitmemOffsetAbsent) ∧
  (∀ s : State, s.valid = true → s.bitCount ≠ 0 → s.hashRounds ≠ 0 → s.keyLen.toNat ≤ s.params.keyCap →
    s.params.bitmemCap ≤ roundIndex s 0 / 8 → exec .contains s = .fault .bitmemOffsetAbsent) ∧
  (∀ (s : State) (v : U64), s.phase = .ldHeader → 20 ≤ s.ldCnt.toNat →
    hostWrite 17 v s = .fault .ldHdrIndexAbsent) ∧
  (∀ (s : State) (v : U64), s.phase = .ldPayload → s.ldCnt.toNat < 20 ∨ s.params.bitmemCap ≤ s.ldCnt.toNat - 20 →
    hostWrite 17 v s = .fault .bitmemOffsetAbsent)
end

