-- ==== Sys2Proof/Laws/State.lean ====
section
/-! SUPPORT. One lemma per field per named update of the state (true by rfl, for simp). -/

namespace Sys2Proof.Machine

variable (s : State)

/-! ### State.withErr -/

@[simp] theorem State.withErr_params (e : Err) : (s.withErr e).params = s.params := (rfl)
@[simp] theorem State.withErr_valid (e : Err) : (s.withErr e).valid = s.valid := (rfl)
@[simp] theorem State.withErr_phase (e : Err) : (s.withErr e).phase = s.phase := (rfl)
@[simp] theorem State.withErr_result (e : Err) : (s.withErr e).result = s.result := (rfl)
@[simp] theorem State.withErr_degen (e : Err) : (s.withErr e).degen = s.degen := (rfl)
@[simp] theorem State.withErr_err (e : Err) : (s.withErr e).err = e := (rfl)
@[simp] theorem State.withErr_ldstat (e : Err) : (s.withErr e).ldstat = s.ldstat := (rfl)
@[simp] theorem State.withErr_entries (e : Err) : (s.withErr e).entries = s.entries := (rfl)
@[simp] theorem State.withErr_hashRounds (e : Err) : (s.withErr e).hashRounds = s.hashRounds := (rfl)
@[simp] theorem State.withErr_bitCount (e : Err) : (s.withErr e).bitCount = s.bitCount := (rfl)
@[simp] theorem State.withErr_keyLen (e : Err) : (s.withErr e).keyLen = s.keyLen := (rfl)
@[simp] theorem State.withErr_kAddr (e : Err) : (s.withErr e).kAddr = s.kAddr := (rfl)
@[simp] theorem State.withErr_seed (e : Err) : (s.withErr e).seed = s.seed := (rfl)
@[simp] theorem State.withErr_hashOut (e : Err) : (s.withErr e).hashOut = s.hashOut := (rfl)
@[simp] theorem State.withErr_h1 (e : Err) : (s.withErr e).h1 = s.h1 := (rfl)
@[simp] theorem State.withErr_h2 (e : Err) : (s.withErr e).h2 = s.h2 := (rfl)
@[simp] theorem State.withErr_round (e : Err) : (s.withErr e).round = s.round := (rfl)
@[simp] theorem State.withErr_combined (e : Err) : (s.withErr e).combined = s.combined := (rfl)
@[simp] theorem State.withErr_bitIndex (e : Err) : (s.withErr e).bitIndex = s.bitIndex := (rfl)
@[simp] theorem State.withErr_bmAddr (e : Err) : (s.withErr e).bmAddr = s.bmAddr := (rfl)
@[simp] theorem State.withErr_ldCnt (e : Err) : (s.withErr e).ldCnt = s.ldCnt := (rfl)
@[simp] theorem State.withErr_bitmem (e : Err) : (s.withErr e).bitmem = s.bitmem := (rfl)
@[simp] theorem State.withErr_bitmemEpoch (e : Err) : (s.withErr e).bitmemEpoch = s.bitmemEpoch := (rfl)
@[simp] theorem State.withErr_keybuf (e : Err) : (s.withErr e).keybuf = s.keybuf := (rfl)
@[simp] theorem State.withErr_ldHdr (e : Err) : (s.withErr e).ldHdr = s.ldHdr := (rfl)
@[simp] theorem State.withErr_resetEpoch (e : Err) : (s.withErr e).resetEpoch = s.resetEpoch := (rfl)
@[simp] theorem State.withErr_inbox (e : Err) : (s.withErr e).inbox = s.inbox := (rfl)
@[simp] theorem State.withErr_outbox (e : Err) : (s.withErr e).outbox = s.outbox := (rfl)

/-! ### State.withHeader -/

@[simp] theorem State.withHeader_params (e : U64) (h : U32) (n : U64) : (s.withHeader e h n).params = s.params := (rfl)
@[simp] theorem State.withHeader_valid (e : U64) (h : U32) (n : U64) : (s.withHeader e h n).valid = s.valid := (rfl)
@[simp] theorem State.withHeader_phase (e : U64) (h : U32) (n : U64) : (s.withHeader e h n).phase = s.phase := (rfl)
@[simp] theorem State.withHeader_result (e : U64) (h : U32) (n : U64) : (s.withHeader e h n).result = s.result := (rfl)
@[simp] theorem State.withHeader_degen (e : U64) (h : U32) (n : U64) : (s.withHeader e h n).degen = s.degen := (rfl)
@[simp] theorem State.withHeader_err (e : U64) (h : U32) (n : U64) : (s.withHeader e h n).err = s.err := (rfl)
@[simp] theorem State.withHeader_ldstat (e : U64) (h : U32) (n : U64) : (s.withHeader e h n).ldstat = s.ldstat := (rfl)
@[simp] theorem State.withHeader_entries (e : U64) (h : U32) (n : U64) : (s.withHeader e h n).entries = e := (rfl)
@[simp] theorem State.withHeader_hashRounds (e : U64) (h : U32) (n : U64) : (s.withHeader e h n).hashRounds = h := (rfl)
@[simp] theorem State.withHeader_bitCount (e : U64) (h : U32) (n : U64) : (s.withHeader e h n).bitCount = n := (rfl)
@[simp] theorem State.withHeader_keyLen (e : U64) (h : U32) (n : U64) : (s.withHeader e h n).keyLen = s.keyLen := (rfl)
@[simp] theorem State.withHeader_kAddr (e : U64) (h : U32) (n : U64) : (s.withHeader e h n).kAddr = s.kAddr := (rfl)
@[simp] theorem State.withHeader_seed (e : U64) (h : U32) (n : U64) : (s.withHeader e h n).seed = s.seed := (rfl)
@[simp] theorem State.withHeader_hashOut (e : U64) (h : U32) (n : U64) : (s.withHeader e h n).hashOut = s.hashOut := (rfl)
@[simp] theorem State.withHeader_h1 (e : U64) (h : U32) (n : U64) : (s.withHeader e h n).h1 = s.h1 := (rfl)
@[simp] theorem State.withHeader_h2 (e : U64) (h : U32) (n : U64) : (s.withHeader e h n).h2 = s.h2 := (rfl)
@[simp] theorem State.withHeader_round (e : U64) (h : U32) (n : U64) : (s.withHeader e h n).round = s.round := (rfl)
@[simp] theorem State.withHeader_combined (e : U64) (h : U32) (n : U64) : (s.withHeader e h n).combined = s.combined := (rfl)
@[simp] theorem State.withHeader_bitIndex (e : U64) (h : U32) (n : U64) : (s.withHeader e h n).bitIndex = s.bitIndex := (rfl)
@[simp] theorem State.withHeader_bmAddr (e : U64) (h : U32) (n : U64) : (s.withHeader e h n).bmAddr = s.bmAddr := (rfl)
@[simp] theorem State.withHeader_ldCnt (e : U64) (h : U32) (n : U64) : (s.withHeader e h n).ldCnt = s.ldCnt := (rfl)
@[simp] theorem State.withHeader_bitmem (e : U64) (h : U32) (n : U64) : (s.withHeader e h n).bitmem = s.bitmem := (rfl)
@[simp] theorem State.withHeader_bitmemEpoch (e : U64) (h : U32) (n : U64) : (s.withHeader e h n).bitmemEpoch = s.bitmemEpoch := (rfl)
@[simp] theorem State.withHeader_keybuf (e : U64) (h : U32) (n : U64) : (s.withHeader e h n).keybuf = s.keybuf := (rfl)
@[simp] theorem State.withHeader_ldHdr (e : U64) (h : U32) (n : U64) : (s.withHeader e h n).ldHdr = s.ldHdr := (rfl)
@[simp] theorem State.withHeader_resetEpoch (e : U64) (h : U32) (n : U64) : (s.withHeader e h n).resetEpoch = s.resetEpoch := (rfl)
@[simp] theorem State.withHeader_inbox (e : U64) (h : U32) (n : U64) : (s.withHeader e h n).inbox = s.inbox := (rfl)
@[simp] theorem State.withHeader_outbox (e : U64) (h : U32) (n : U64) : (s.withHeader e h n).outbox = s.outbox := (rfl)

/-! ### State.withResult -/

@[simp] theorem State.withResult_params (r d : Bool) : (s.withResult r d).params = s.params := (rfl)
@[simp] theorem State.withResult_valid (r d : Bool) : (s.withResult r d).valid = s.valid := (rfl)
@[simp] theorem State.withResult_phase (r d : Bool) : (s.withResult r d).phase = s.phase := (rfl)
@[simp] theorem State.withResult_result (r d : Bool) : (s.withResult r d).result = r := (rfl)
@[simp] theorem State.withResult_degen (r d : Bool) : (s.withResult r d).degen = d := (rfl)
@[simp] theorem State.withResult_err (r d : Bool) : (s.withResult r d).err = s.err := (rfl)
@[simp] theorem State.withResult_ldstat (r d : Bool) : (s.withResult r d).ldstat = s.ldstat := (rfl)
@[simp] theorem State.withResult_entries (r d : Bool) : (s.withResult r d).entries = s.entries := (rfl)
@[simp] theorem State.withResult_hashRounds (r d : Bool) : (s.withResult r d).hashRounds = s.hashRounds := (rfl)
@[simp] theorem State.withResult_bitCount (r d : Bool) : (s.withResult r d).bitCount = s.bitCount := (rfl)
@[simp] theorem State.withResult_keyLen (r d : Bool) : (s.withResult r d).keyLen = s.keyLen := (rfl)
@[simp] theorem State.withResult_kAddr (r d : Bool) : (s.withResult r d).kAddr = s.kAddr := (rfl)
@[simp] theorem State.withResult_seed (r d : Bool) : (s.withResult r d).seed = s.seed := (rfl)
@[simp] theorem State.withResult_hashOut (r d : Bool) : (s.withResult r d).hashOut = s.hashOut := (rfl)
@[simp] theorem State.withResult_h1 (r d : Bool) : (s.withResult r d).h1 = s.h1 := (rfl)
@[simp] theorem State.withResult_h2 (r d : Bool) : (s.withResult r d).h2 = s.h2 := (rfl)
@[simp] theorem State.withResult_round (r d : Bool) : (s.withResult r d).round = s.round := (rfl)
@[simp] theorem State.withResult_combined (r d : Bool) : (s.withResult r d).combined = s.combined := (rfl)
@[simp] theorem State.withResult_bitIndex (r d : Bool) : (s.withResult r d).bitIndex = s.bitIndex := (rfl)
@[simp] theorem State.withResult_bmAddr (r d : Bool) : (s.withResult r d).bmAddr = s.bmAddr := (rfl)
@[simp] theorem State.withResult_ldCnt (r d : Bool) : (s.withResult r d).ldCnt = s.ldCnt := (rfl)
@[simp] theorem State.withResult_bitmem (r d : Bool) : (s.withResult r d).bitmem = s.bitmem := (rfl)
@[simp] theorem State.withResult_bitmemEpoch (r d : Bool) : (s.withResult r d).bitmemEpoch = s.bitmemEpoch := (rfl)
@[simp] theorem State.withResult_keybuf (r d : Bool) : (s.withResult r d).keybuf = s.keybuf := (rfl)
@[simp] theorem State.withResult_ldHdr (r d : Bool) : (s.withResult r d).ldHdr = s.ldHdr := (rfl)
@[simp] theorem State.withResult_resetEpoch (r d : Bool) : (s.withResult r d).resetEpoch = s.resetEpoch := (rfl)
@[simp] theorem State.withResult_inbox (r d : Bool) : (s.withResult r d).inbox = s.inbox := (rfl)
@[simp] theorem State.withResult_outbox (r d : Bool) : (s.withResult r d).outbox = s.outbox := (rfl)

/-! ### State.withIndex -/

@[simp] theorem State.withIndex_params (c : U32) (b : U64) : (s.withIndex c b).params = s.params := (rfl)
@[simp] theorem State.withIndex_valid (c : U32) (b : U64) : (s.withIndex c b).valid = s.valid := (rfl)
@[simp] theorem State.withIndex_phase (c : U32) (b : U64) : (s.withIndex c b).phase = s.phase := (rfl)
@[simp] theorem State.withIndex_result (c : U32) (b : U64) : (s.withIndex c b).result = s.result := (rfl)
@[simp] theorem State.withIndex_degen (c : U32) (b : U64) : (s.withIndex c b).degen = s.degen := (rfl)
@[simp] theorem State.withIndex_err (c : U32) (b : U64) : (s.withIndex c b).err = s.err := (rfl)
@[simp] theorem State.withIndex_ldstat (c : U32) (b : U64) : (s.withIndex c b).ldstat = s.ldstat := (rfl)
@[simp] theorem State.withIndex_entries (c : U32) (b : U64) : (s.withIndex c b).entries = s.entries := (rfl)
@[simp] theorem State.withIndex_hashRounds (c : U32) (b : U64) : (s.withIndex c b).hashRounds = s.hashRounds := (rfl)
@[simp] theorem State.withIndex_bitCount (c : U32) (b : U64) : (s.withIndex c b).bitCount = s.bitCount := (rfl)
@[simp] theorem State.withIndex_keyLen (c : U32) (b : U64) : (s.withIndex c b).keyLen = s.keyLen := (rfl)
@[simp] theorem State.withIndex_kAddr (c : U32) (b : U64) : (s.withIndex c b).kAddr = s.kAddr := (rfl)
@[simp] theorem State.withIndex_seed (c : U32) (b : U64) : (s.withIndex c b).seed = s.seed := (rfl)
@[simp] theorem State.withIndex_hashOut (c : U32) (b : U64) : (s.withIndex c b).hashOut = s.hashOut := (rfl)
@[simp] theorem State.withIndex_h1 (c : U32) (b : U64) : (s.withIndex c b).h1 = s.h1 := (rfl)
@[simp] theorem State.withIndex_h2 (c : U32) (b : U64) : (s.withIndex c b).h2 = s.h2 := (rfl)
@[simp] theorem State.withIndex_round (c : U32) (b : U64) : (s.withIndex c b).round = s.round := (rfl)
@[simp] theorem State.withIndex_combined (c : U32) (b : U64) : (s.withIndex c b).combined = c := (rfl)
@[simp] theorem State.withIndex_bitIndex (c : U32) (b : U64) : (s.withIndex c b).bitIndex = b := (rfl)
@[simp] theorem State.withIndex_bmAddr (c : U32) (b : U64) : (s.withIndex c b).bmAddr = s.bmAddr := (rfl)
@[simp] theorem State.withIndex_ldCnt (c : U32) (b : U64) : (s.withIndex c b).ldCnt = s.ldCnt := (rfl)
@[simp] theorem State.withIndex_bitmem (c : U32) (b : U64) : (s.withIndex c b).bitmem = s.bitmem := (rfl)
@[simp] theorem State.withIndex_bitmemEpoch (c : U32) (b : U64) : (s.withIndex c b).bitmemEpoch = s.bitmemEpoch := (rfl)
@[simp] theorem State.withIndex_keybuf (c : U32) (b : U64) : (s.withIndex c b).keybuf = s.keybuf := (rfl)
@[simp] theorem State.withIndex_ldHdr (c : U32) (b : U64) : (s.withIndex c b).ldHdr = s.ldHdr := (rfl)
@[simp] theorem State.withIndex_resetEpoch (c : U32) (b : U64) : (s.withIndex c b).resetEpoch = s.resetEpoch := (rfl)
@[simp] theorem State.withIndex_inbox (c : U32) (b : U64) : (s.withIndex c b).inbox = s.inbox := (rfl)
@[simp] theorem State.withIndex_outbox (c : U32) (b : U64) : (s.withIndex c b).outbox = s.outbox := (rfl)

/-! ### State.dropBitmem -/

@[simp] theorem State.dropBitmem_params : (s.dropBitmem).params = s.params := (rfl)
@[simp] theorem State.dropBitmem_valid : (s.dropBitmem).valid = s.valid := (rfl)
@[simp] theorem State.dropBitmem_phase : (s.dropBitmem).phase = s.phase := (rfl)
@[simp] theorem State.dropBitmem_result : (s.dropBitmem).result = s.result := (rfl)
@[simp] theorem State.dropBitmem_degen : (s.dropBitmem).degen = s.degen := (rfl)
@[simp] theorem State.dropBitmem_err : (s.dropBitmem).err = s.err := (rfl)
@[simp] theorem State.dropBitmem_ldstat : (s.dropBitmem).ldstat = s.ldstat := (rfl)
@[simp] theorem State.dropBitmem_entries : (s.dropBitmem).entries = s.entries := (rfl)
@[simp] theorem State.dropBitmem_hashRounds : (s.dropBitmem).hashRounds = s.hashRounds := (rfl)
@[simp] theorem State.dropBitmem_bitCount : (s.dropBitmem).bitCount = s.bitCount := (rfl)
@[simp] theorem State.dropBitmem_keyLen : (s.dropBitmem).keyLen = s.keyLen := (rfl)
@[simp] theorem State.dropBitmem_kAddr : (s.dropBitmem).kAddr = s.kAddr := (rfl)
@[simp] theorem State.dropBitmem_seed : (s.dropBitmem).seed = s.seed := (rfl)
@[simp] theorem State.dropBitmem_hashOut : (s.dropBitmem).hashOut = s.hashOut := (rfl)
@[simp] theorem State.dropBitmem_h1 : (s.dropBitmem).h1 = s.h1 := (rfl)
@[simp] theorem State.dropBitmem_h2 : (s.dropBitmem).h2 = s.h2 := (rfl)
@[simp] theorem State.dropBitmem_round : (s.dropBitmem).round = s.round := (rfl)
@[simp] theorem State.dropBitmem_combined : (s.dropBitmem).combined = s.combined := (rfl)
@[simp] theorem State.dropBitmem_bitIndex : (s.dropBitmem).bitIndex = s.bitIndex := (rfl)
@[simp] theorem State.dropBitmem_bmAddr : (s.dropBitmem).bmAddr = s.bmAddr := (rfl)
@[simp] theorem State.dropBitmem_ldCnt : (s.dropBitmem).ldCnt = s.ldCnt := (rfl)
@[simp] theorem State.dropBitmem_bitmem : (s.dropBitmem).bitmem = [] := (rfl)
@[simp] theorem State.dropBitmem_bitmemEpoch : (s.dropBitmem).bitmemEpoch = s.bitmemEpoch + 1 := (rfl)
@[simp] theorem State.dropBitmem_keybuf : (s.dropBitmem).keybuf = s.keybuf := (rfl)
@[simp] theorem State.dropBitmem_ldHdr : (s.dropBitmem).ldHdr = s.ldHdr := (rfl)
@[simp] theorem State.dropBitmem_resetEpoch : (s.dropBitmem).resetEpoch = s.resetEpoch := (rfl)
@[simp] theorem State.dropBitmem_inbox : (s.dropBitmem).inbox = s.inbox := (rfl)
@[simp] theorem State.dropBitmem_outbox : (s.dropBitmem).outbox = s.outbox := (rfl)

/-! ### loadFail -/

@[simp] theorem loadFail_params (code : LdStat) : (loadFail code s).params = s.params := (rfl)
@[simp] theorem loadFail_valid (code : LdStat) : (loadFail code s).valid = s.valid := (rfl)
@[simp] theorem loadFail_phase (code : LdStat) : (loadFail code s).phase = .idle := (rfl)
@[simp] theorem loadFail_result (code : LdStat) : (loadFail code s).result = s.result := (rfl)
@[simp] theorem loadFail_degen (code : LdStat) : (loadFail code s).degen = s.degen := (rfl)
@[simp] theorem loadFail_err (code : LdStat) : (loadFail code s).err = s.err := (rfl)
@[simp] theorem loadFail_ldstat (code : LdStat) : (loadFail code s).ldstat = code := (rfl)
@[simp] theorem loadFail_entries (code : LdStat) : (loadFail code s).entries = 0 := (rfl)
@[simp] theorem loadFail_hashRounds (code : LdStat) : (loadFail code s).hashRounds = 0 := (rfl)
@[simp] theorem loadFail_bitCount (code : LdStat) : (loadFail code s).bitCount = 0 := (rfl)
@[simp] theorem loadFail_keyLen (code : LdStat) : (loadFail code s).keyLen = s.keyLen := (rfl)
@[simp] theorem loadFail_kAddr (code : LdStat) : (loadFail code s).kAddr = s.kAddr := (rfl)
@[simp] theorem loadFail_seed (code : LdStat) : (loadFail code s).seed = s.seed := (rfl)
@[simp] theorem loadFail_hashOut (code : LdStat) : (loadFail code s).hashOut = s.hashOut := (rfl)
@[simp] theorem loadFail_h1 (code : LdStat) : (loadFail code s).h1 = s.h1 := (rfl)
@[simp] theorem loadFail_h2 (code : LdStat) : (loadFail code s).h2 = s.h2 := (rfl)
@[simp] theorem loadFail_round (code : LdStat) : (loadFail code s).round = s.round := (rfl)
@[simp] theorem loadFail_combined (code : LdStat) : (loadFail code s).combined = s.combined := (rfl)
@[simp] theorem loadFail_bitIndex (code : LdStat) : (loadFail code s).bitIndex = s.bitIndex := (rfl)
@[simp] theorem loadFail_bmAddr (code : LdStat) : (loadFail code s).bmAddr = s.bmAddr := (rfl)
@[simp] theorem loadFail_ldCnt (code : LdStat) : (loadFail code s).ldCnt = s.ldCnt := (rfl)
@[simp] theorem loadFail_bitmem (code : LdStat) : (loadFail code s).bitmem = [] := (rfl)
@[simp] theorem loadFail_bitmemEpoch (code : LdStat) : (loadFail code s).bitmemEpoch = s.bitmemEpoch + 1 := (rfl)
@[simp] theorem loadFail_keybuf (code : LdStat) : (loadFail code s).keybuf = s.keybuf := (rfl)
@[simp] theorem loadFail_ldHdr (code : LdStat) : (loadFail code s).ldHdr = s.ldHdr := (rfl)
@[simp] theorem loadFail_resetEpoch (code : LdStat) : (loadFail code s).resetEpoch = s.resetEpoch := (rfl)
@[simp] theorem loadFail_inbox (code : LdStat) : (loadFail code s).inbox = s.inbox := (rfl)
@[simp] theorem loadFail_outbox (code : LdStat) : (loadFail code s).outbox = s.outbox := (rfl)

/-! ### acceptHeaderByte -/

@[simp] theorem acceptHeaderByte_params (d : Byte) : (acceptHeaderByte d s).params = s.params := (rfl)
@[simp] theorem acceptHeaderByte_valid (d : Byte) : (acceptHeaderByte d s).valid = s.valid := (rfl)
@[simp] theorem acceptHeaderByte_phase (d : Byte) : (acceptHeaderByte d s).phase = s.phase := (rfl)
@[simp] theorem acceptHeaderByte_result (d : Byte) : (acceptHeaderByte d s).result = s.result := (rfl)
@[simp] theorem acceptHeaderByte_degen (d : Byte) : (acceptHeaderByte d s).degen = s.degen := (rfl)
@[simp] theorem acceptHeaderByte_err (d : Byte) : (acceptHeaderByte d s).err = s.err := (rfl)
@[simp] theorem acceptHeaderByte_ldstat (d : Byte) : (acceptHeaderByte d s).ldstat = s.ldstat := (rfl)
@[simp] theorem acceptHeaderByte_entries (d : Byte) : (acceptHeaderByte d s).entries = s.entries := (rfl)
@[simp] theorem acceptHeaderByte_hashRounds (d : Byte) : (acceptHeaderByte d s).hashRounds = s.hashRounds := (rfl)
@[simp] theorem acceptHeaderByte_bitCount (d : Byte) : (acceptHeaderByte d s).bitCount = s.bitCount := (rfl)
@[simp] theorem acceptHeaderByte_keyLen (d : Byte) : (acceptHeaderByte d s).keyLen = s.keyLen := (rfl)
@[simp] theorem acceptHeaderByte_kAddr (d : Byte) : (acceptHeaderByte d s).kAddr = s.kAddr := (rfl)
@[simp] theorem acceptHeaderByte_seed (d : Byte) : (acceptHeaderByte d s).seed = s.seed := (rfl)
@[simp] theorem acceptHeaderByte_hashOut (d : Byte) : (acceptHeaderByte d s).hashOut = s.hashOut := (rfl)
@[simp] theorem acceptHeaderByte_h1 (d : Byte) : (acceptHeaderByte d s).h1 = s.h1 := (rfl)
@[simp] theorem acceptHeaderByte_h2 (d : Byte) : (acceptHeaderByte d s).h2 = s.h2 := (rfl)
@[simp] theorem acceptHeaderByte_round (d : Byte) : (acceptHeaderByte d s).round = s.round := (rfl)
@[simp] theorem acceptHeaderByte_combined (d : Byte) : (acceptHeaderByte d s).combined = s.combined := (rfl)
@[simp] theorem acceptHeaderByte_bitIndex (d : Byte) : (acceptHeaderByte d s).bitIndex = s.bitIndex := (rfl)
@[simp] theorem acceptHeaderByte_bmAddr (d : Byte) : (acceptHeaderByte d s).bmAddr = s.bmAddr := (rfl)
@[simp] theorem acceptHeaderByte_ldCnt (d : Byte) : (acceptHeaderByte d s).ldCnt = s.ldCnt + 1 := (rfl)
@[simp] theorem acceptHeaderByte_bitmem (d : Byte) : (acceptHeaderByte d s).bitmem = s.bitmem := (rfl)
@[simp] theorem acceptHeaderByte_bitmemEpoch (d : Byte) : (acceptHeaderByte d s).bitmemEpoch = s.bitmemEpoch := (rfl)
@[simp] theorem acceptHeaderByte_keybuf (d : Byte) : (acceptHeaderByte d s).keybuf = s.keybuf := (rfl)
@[simp] theorem acceptHeaderByte_ldHdr (d : Byte) : (acceptHeaderByte d s).ldHdr = Memory.store s.ldHdr s.ldCnt.toNat d := (rfl)
@[simp] theorem acceptHeaderByte_resetEpoch (d : Byte) : (acceptHeaderByte d s).resetEpoch = s.resetEpoch := (rfl)
@[simp] theorem acceptHeaderByte_inbox (d : Byte) : (acceptHeaderByte d s).inbox = s.inbox := (rfl)
@[simp] theorem acceptHeaderByte_outbox (d : Byte) : (acceptHeaderByte d s).outbox = s.outbox := (rfl)

/-! ### acceptPayloadByte -/

@[simp] theorem acceptPayloadByte_params (d : Byte) : (acceptPayloadByte d s).params = s.params := (rfl)
@[simp] theorem acceptPayloadByte_valid (d : Byte) : (acceptPayloadByte d s).valid = s.valid := (rfl)
@[simp] theorem acceptPayloadByte_phase (d : Byte) : (acceptPayloadByte d s).phase = s.phase := (rfl)
@[simp] theorem acceptPayloadByte_result (d : Byte) : (acceptPayloadByte d s).result = s.result := (rfl)
@[simp] theorem acceptPayloadByte_degen (d : Byte) : (acceptPayloadByte d s).degen = s.degen := (rfl)
@[simp] theorem acceptPayloadByte_err (d : Byte) : (acceptPayloadByte d s).err = s.err := (rfl)
@[simp] theorem acceptPayloadByte_ldstat (d : Byte) : (acceptPayloadByte d s).ldstat = s.ldstat := (rfl)
@[simp] theorem acceptPayloadByte_entries (d : Byte) : (acceptPayloadByte d s).entries = s.entries := (rfl)
@[simp] theorem acceptPayloadByte_hashRounds (d : Byte) : (acceptPayloadByte d s).hashRounds = s.hashRounds := (rfl)
@[simp] theorem acceptPayloadByte_bitCount (d : Byte) : (acceptPayloadByte d s).bitCount = s.bitCount := (rfl)
@[simp] theorem acceptPayloadByte_keyLen (d : Byte) : (acceptPayloadByte d s).keyLen = s.keyLen := (rfl)
@[simp] theorem acceptPayloadByte_kAddr (d : Byte) : (acceptPayloadByte d s).kAddr = s.kAddr := (rfl)
@[simp] theorem acceptPayloadByte_seed (d : Byte) : (acceptPayloadByte d s).seed = s.seed := (rfl)
@[simp] theorem acceptPayloadByte_hashOut (d : Byte) : (acceptPayloadByte d s).hashOut = s.hashOut := (rfl)
@[simp] theorem acceptPayloadByte_h1 (d : Byte) : (acceptPayloadByte d s).h1 = s.h1 := (rfl)
@[simp] theorem acceptPayloadByte_h2 (d : Byte) : (acceptPayloadByte d s).h2 = s.h2 := (rfl)
@[simp] theorem acceptPayloadByte_round (d : Byte) : (acceptPayloadByte d s).round = s.round := (rfl)
@[simp] theorem acceptPayloadByte_combined (d : Byte) : (acceptPayloadByte d s).combined = s.combined := (rfl)
@[simp] theorem acceptPayloadByte_bitIndex (d : Byte) : (acceptPayloadByte d s).bitIndex = s.bitIndex := (rfl)
@[simp] theorem acceptPayloadByte_bmAddr (d : Byte) : (acceptPayloadByte d s).bmAddr = s.bmAddr := (rfl)
@[simp] theorem acceptPayloadByte_ldCnt (d : Byte) : (acceptPayloadByte d s).ldCnt = s.ldCnt + 1 := (rfl)
@[simp] theorem acceptPayloadByte_bitmem (d : Byte) : (acceptPayloadByte d s).bitmem = Memory.store s.bitmem (s.ldCnt.toNat - 20) d := (rfl)
@[simp] theorem acceptPayloadByte_bitmemEpoch (d : Byte) : (acceptPayloadByte d s).bitmemEpoch = s.bitmemEpoch := (rfl)
@[simp] theorem acceptPayloadByte_keybuf (d : Byte) : (acceptPayloadByte d s).keybuf = s.keybuf := (rfl)
@[simp] theorem acceptPayloadByte_ldHdr (d : Byte) : (acceptPayloadByte d s).ldHdr = s.ldHdr := (rfl)
@[simp] theorem acceptPayloadByte_resetEpoch (d : Byte) : (acceptPayloadByte d s).resetEpoch = s.resetEpoch := (rfl)
@[simp] theorem acceptPayloadByte_inbox (d : Byte) : (acceptPayloadByte d s).inbox = s.inbox := (rfl)
@[simp] theorem acceptPayloadByte_outbox (d : Byte) : (acceptPayloadByte d s).outbox = s.outbox := (rfl)

/-! ### loadComplete -/

@[simp] theorem loadComplete_params : (loadComplete s).params = s.params := (rfl)
@[simp] theorem loadComplete_valid : (loadComplete s).valid = true := (rfl)
@[simp] theorem loadComplete_phase : (loadComplete s).phase = .idle := (rfl)
@[simp] theorem loadComplete_result : (loadComplete s).result = s.result := (rfl)
@[simp] theorem loadComplete_degen : (loadComplete s).degen = s.degen := (rfl)
@[simp] theorem loadComplete_err : (loadComplete s).err = s.err := (rfl)
@[simp] theorem loadComplete_ldstat : (loadComplete s).ldstat = .ok := (rfl)
@[simp] theorem loadComplete_entries : (loadComplete s).entries = s.entries := (rfl)
@[simp] theorem loadComplete_hashRounds : (loadComplete s).hashRounds = s.hashRounds := (rfl)
@[simp] theorem loadComplete_bitCount : (loadComplete s).bitCount = s.bitCount := (rfl)
@[simp] theorem loadComplete_keyLen : (loadComplete s).keyLen = s.keyLen := (rfl)
@[simp] theorem loadComplete_kAddr : (loadComplete s).kAddr = s.kAddr := (rfl)
@[simp] theorem loadComplete_seed : (loadComplete s).seed = s.seed := (rfl)
@[simp] theorem loadComplete_hashOut : (loadComplete s).hashOut = s.hashOut := (rfl)
@[simp] theorem loadComplete_h1 : (loadComplete s).h1 = s.h1 := (rfl)
@[simp] theorem loadComplete_h2 : (loadComplete s).h2 = s.h2 := (rfl)
@[simp] theorem loadComplete_round : (loadComplete s).round = s.round := (rfl)
@[simp] theorem loadComplete_combined : (loadComplete s).combined = s.combined := (rfl)
@[simp] theorem loadComplete_bitIndex : (loadComplete s).bitIndex = s.bitIndex := (rfl)
@[simp] theorem loadComplete_bmAddr : (loadComplete s).bmAddr = s.bmAddr := (rfl)
@[simp] theorem loadComplete_ldCnt : (loadComplete s).ldCnt = s.ldCnt := (rfl)
@[simp] theorem loadComplete_bitmem : (loadComplete s).bitmem = s.bitmem := (rfl)
@[simp] theorem loadComplete_bitmemEpoch : (loadComplete s).bitmemEpoch = s.bitmemEpoch := (rfl)
@[simp] theorem loadComplete_keybuf : (loadComplete s).keybuf = s.keybuf := (rfl)
@[simp] theorem loadComplete_ldHdr : (loadComplete s).ldHdr = s.ldHdr := (rfl)
@[simp] theorem loadComplete_resetEpoch : (loadComplete s).resetEpoch = s.resetEpoch := (rfl)
@[simp] theorem loadComplete_inbox : (loadComplete s).inbox = s.inbox := (rfl)
@[simp] theorem loadComplete_outbox : (loadComplete s).outbox = s.outbox := (rfl)

/-! ### applyReset -/

@[simp] theorem applyReset_params : (applyReset s).params = s.params := (rfl)
@[simp] theorem applyReset_valid : (applyReset s).valid = false := (rfl)
@[simp] theorem applyReset_phase : (applyReset s).phase = .idle := (rfl)
@[simp] theorem applyReset_result : (applyReset s).result = false := (rfl)
@[simp] theorem applyReset_degen : (applyReset s).degen = false := (rfl)
@[simp] theorem applyReset_err : (applyReset s).err = .ok := (rfl)
@[simp] theorem applyReset_ldstat : (applyReset s).ldstat = .none := (rfl)
@[simp] theorem applyReset_entries : (applyReset s).entries = 0 := (rfl)
@[simp] theorem applyReset_hashRounds : (applyReset s).hashRounds = 0 := (rfl)
@[simp] theorem applyReset_bitCount : (applyReset s).bitCount = 0 := (rfl)
@[simp] theorem applyReset_keyLen : (applyReset s).keyLen = 0 := (rfl)
@[simp] theorem applyReset_kAddr : (applyReset s).kAddr = 0 := (rfl)
@[simp] theorem applyReset_seed : (applyReset s).seed = 0 := (rfl)
@[simp] theorem applyReset_hashOut : (applyReset s).hashOut = 0 := (rfl)
@[simp] theorem applyReset_h1 : (applyReset s).h1 = 0 := (rfl)
@[simp] theorem applyReset_h2 : (applyReset s).h2 = 0 := (rfl)
@[simp] theorem applyReset_round : (applyReset s).round = 0 := (rfl)
@[simp] theorem applyReset_combined : (applyReset s).combined = 0 := (rfl)
@[simp] theorem applyReset_bitIndex : (applyReset s).bitIndex = 0 := (rfl)
@[simp] theorem applyReset_bmAddr : (applyReset s).bmAddr = 0 := (rfl)
@[simp] theorem applyReset_ldCnt : (applyReset s).ldCnt = 0 := (rfl)
@[simp] theorem applyReset_bitmem : (applyReset s).bitmem = [] := (rfl)
@[simp] theorem applyReset_bitmemEpoch : (applyReset s).bitmemEpoch = s.bitmemEpoch + 1 := (rfl)
@[simp] theorem applyReset_keybuf : (applyReset s).keybuf = [] := (rfl)
@[simp] theorem applyReset_ldHdr : (applyReset s).ldHdr = [] := (rfl)
@[simp] theorem applyReset_resetEpoch : (applyReset s).resetEpoch = s.resetEpoch + 1 := (rfl)
@[simp] theorem applyReset_inbox : (applyReset s).inbox = s.inbox := (rfl)
@[simp] theorem applyReset_outbox : (applyReset s).outbox = s.outbox := (rfl)

end Sys2Proof.Machine
end

