-- ==== Sys2Proof/Laws/Memory.lean ====
section
/-! SUPPORT. The laws of memories: read after write, the canonical form, the bounds; and what a byte read depends on. -/

namespace Sys2Proof.Machine

@[simp] theorem Memory.lookup_nil (k : Nat) : Memory.lookup [] k = none := rfl

@[simp] theorem Memory.lookup_store_same (m : Memory) (k : Nat) (v : Byte) :
    Memory.lookup (Memory.store m k v) k = some v := by
  induction m with
  | nil => simp [Memory.store, Memory.lookup]
  | cons c m ih =>
    obtain ⟨a, b⟩ := c
    simp only [Memory.store]
    split_ifs with h1 h2
    · simp [Memory.lookup]
    · simp [Memory.lookup]
    · simp [Memory.lookup, Ne.symm h2, ih]

theorem Memory.lookup_store_other (m : Memory) (j k : Nat) (v : Byte) (h : k ≠ j) :
    Memory.lookup (Memory.store m j v) k = Memory.lookup m k := by
  induction m with
  | nil => simp [Memory.store, Memory.lookup, h.symm]
  | cons c m ih =>
    obtain ⟨a, b⟩ := c
    simp only [Memory.store]
    split_ifs with h1 h2
    · simp [Memory.lookup, h.symm]
    · subst h2
      simp [Memory.lookup, h.symm]
    · simp [Memory.lookup, ih]

/-- Every listed offset after a store is the one stored to or was listed before. -/
theorem Memory.mem_store (m : Memory) (k : Nat) (v : Byte) (c : Host.Cell) (h : c ∈ Memory.store m k v) :
    c = (k, v) ∨ c ∈ m := by
  induction m with
  | nil => simpa [Memory.store] using h
  | cons d m ih =>
    obtain ⟨a, b⟩ := d
    simp only [Memory.store] at h
    split_ifs at h with h1 h2
    · simpa using h
    · rcases List.mem_cons.mp h with h | h
      · exact .inl h
      · exact .inr (List.mem_cons_of_mem _ h)
    · rcases List.mem_cons.mp h with h | h
      · exact .inr (h ▸ List.mem_cons_self)
      · exact (ih h).imp id (List.mem_cons_of_mem _)

/-- A store keeps the canonical form. -/
theorem Memory.wf_of_store (m : Memory) (k : Nat) (v : Byte) (h : Memory.wf m) : Memory.wf (Memory.store m k v) := by
  induction m with
  | nil => simp [Memory.store, Memory.wf]
  | cons d m ih =>
    obtain ⟨a, b⟩ := d
    obtain ⟨hd, hm⟩ := List.pairwise_cons.mp h
    simp only [Memory.store]
    split_ifs with h1 h2
    · refine List.pairwise_cons.mpr ⟨fun c hc => ?_, h⟩
      rcases List.mem_cons.mp hc with rfl | hc
      · exact h1
      · exact lt_trans h1 (hd c hc)
    · subst h2
      exact List.pairwise_cons.mpr ⟨hd, hm⟩
    · refine List.pairwise_cons.mpr ⟨fun c hc => ?_, ih hm⟩
      rcases Memory.mem_store m k v c hc with rfl | hc
      · show a < k
        omega
      · exact hd c hc

@[simp] theorem Memory.wf_nil : Memory.wf [] := List.Pairwise.nil

@[simp] theorem Memory.below_nil (size : Nat) : Memory.below size [] := by simp [Memory.below]

/-- A store below the size keeps the listed offsets below it. -/
theorem Memory.below_store (m : Memory) (k size : Nat) (v : Byte) (hk : k < size) (h : Memory.below size m) :
    Memory.below size (Memory.store m k v) := by
  intro c hc
  rcases Memory.mem_store m k v c hc with rfl | hc
  · exact hk
  · exact h c hc

/-- A store never unlists an offset. -/
theorem Memory.lookup_store_isSome (m : Memory) (j k : Nat) (v : Byte)
    (h : k = j ∨ (Memory.lookup m k).isSome = true) : (Memory.lookup (Memory.store m j v) k).isSome = true := by
  by_cases hk : k = j
  · subst hk
    simp
  · rw [Memory.lookup_store_other _ _ _ _ hk]
    exact h.resolve_left hk

@[simp] theorem readByte_nil (space : Space) (epoch k : Nat) : readByte space epoch [] k = Config.freeByte space epoch k :=
  rfl

@[simp] theorem readByte_store_same (space : Space) (epoch k : Nat) (m : Memory) (v : Byte) :
    readByte space epoch (Memory.store m k v) k = v := by
  simp [readByte]

theorem readByte_store_other (space : Space) (epoch j k : Nat) (m : Memory) (v : Byte) (h : k ≠ j) :
    readByte space epoch (Memory.store m j v) k = readByte space epoch m k := by
  simp [readByte, Memory.lookup_store_other _ _ _ _ h]

/-- The byte reads depend on the memory and its epoch alone. -/
theorem bitmemByte_congr {s t : State} (hm : t.bitmem = s.bitmem) (he : t.bitmemEpoch = s.bitmemEpoch) (k : Nat) :
    bitmemByte t k = bitmemByte s k := by
  simp [bitmemByte, hm, he]

theorem keybufByte_congr {s t : State} (hm : t.keybuf = s.keybuf) (he : t.resetEpoch = s.resetEpoch) (k : Nat) :
    keybufByte t k = keybufByte s k := by
  simp [keybufByte, hm, he]

theorem ldHdrByte_congr {s t : State} (hm : t.ldHdr = s.ldHdr) (he : t.resetEpoch = s.resetEpoch) (k : Nat) :
    ldHdrByte t k = ldHdrByte s k := by
  simp [ldHdrByte, hm, he]

theorem key_congr {s t : State} (hl : t.keyLen = s.keyLen) (hb : ∀ k, keybufByte t k = keybufByte s k) :
    key t = key s := by
  simp [key, hl, funext hb]

end Sys2Proof.Machine
end

