-- ==== Sys2Proof/Laws/Arith.lean ====
section
/-! SUPPORT. The laws of `ceil8`, the packing functions and the bit-position derivation (R10, R12, R13, R130 to R136). -/

namespace Sys2Proof.Machine

/-- The ranges of the parameters (R7, R77). -/
theorem params_wellFormed_iff (p : Params) : p.wellFormed = true ↔
    1 ≤ p.bitmemCap ∧ p.bitmemCap ≤ 2 ^ 61 ∧ p.keyCap ≤ 2 ^ 32 - 1 ∧ p.regBase % 256 = 0 := by
  simp [Params.wellFormed, and_assoc]

/-- The counter's next value over the naturals, below its last one. -/
theorem toNat_add_one (x : U64) (h : x.toNat < 2 ^ 64 - 1) : (x + 1).toNat = x.toNat + 1 := by
  simp
  omega

theorem ceil8_pos (n : U64) (h : n ≠ 0) : 0 < ceil8 n := by
  have : n.toNat ≠ 0 := fun h0 => h (BitVec.eq_of_toNat_eq (by simpa using h0))
  unfold ceil8
  split_ifs <;> omega

@[simp] theorem ceil8_zero : ceil8 0#64 = 0 := rfl

/-- A bit of the array lies in a byte of the buffer (R72). -/
theorem byteOffset_lt_ceil8 (n : U64) (b : Nat) (h : b < n.toNat) : b / 8 < ceil8 n := by
  unfold ceil8
  split_ifs <;> omega

theorem ceil8_le (n : U64) : ceil8 n ≤ 2 ^ 61 := by
  have := n.isLt
  unfold ceil8
  split_ifs <;> omega

/-- `Abs` by cases (R132). -/
theorem abs64_cases (c : U32) : abs64 c = if c.toNat < 2 ^ 31 then c.toNat else 2 ^ 32 - c.toNat := by
  have := c.isLt
  unfold abs64
  rw [BitVec.toInt_eq_toNat_cond]
  split_ifs <;> omega

theorem abs64_le (c : U32) : abs64 c ≤ 2 ^ 31 := by
  rw [abs64_cases]
  split_ifs <;> omega

/-- The reduced index over the naturals (R133). -/
theorem toNat_reduceIndex (c : U32) (n : U64) : (reduceIndex c n).toNat = abs64 c % n.toNat := by
  have h1 := abs64_le c
  have h2 := Nat.mod_le (abs64 c) n.toNat
  simp only [reduceIndex, BitVec.toNat_ofNat]
  exact Nat.mod_eq_of_lt (by omega)

theorem reduceIndex_lt (c : U32) (n : U64) (h : n ≠ 0) : (reduceIndex c n).toNat < n.toNat := by
  have : n.toNat ≠ 0 := fun h0 => h (BitVec.eq_of_toNat_eq (by simpa using h0))
  rw [toNat_reduceIndex]
  exact Nat.mod_lt _ (by omega)

/-- The mask `1 << k` selects bit `k` of a byte (R67). -/
theorem testMask_eq (word : Byte) (b : U64) : testMask word b = word.getLsbD (b.toNat % 8) := by
  have key : ∀ (word : Byte) (k : Fin 8), decide (word &&& ((1 : Byte) <<< k.val) ≠ 0) = word.getLsbD k.val := by
    decide +kernel
  exact key word ⟨b.toNat % 8, Nat.mod_lt _ (by omega)⟩

/-- The bit-test unit on an offset that exists (R136). -/
theorem bitTest_of_lt (s : State) (b : U64) (h : b.toNat / 8 < s.params.bitmemCap) :
    bitTest s b = some ((bitmemByte s (b.toNat / 8)).getLsbD (b.toNat % 8)) := by
  simp [bitTest, h, testMask_eq]

theorem bitTest_of_not_lt (s : State) (b : U64) (h : ¬ b.toNat / 8 < s.params.bitmemCap) : bitTest s b = none := by
  simp [bitTest, h]

/-- The bit test depends on the capacity and the BITMEM bytes alone. -/
theorem bitTest_congr {s t : State} (hp : t.params = s.params) (hb : ∀ k, bitmemByte t k = bitmemByte s k) (b : U64) :
    bitTest t b = bitTest s b := by
  simp [bitTest, hp, hb]

end Sys2Proof.Machine
end

