-- ==== Sys2Proof/Laws/Exec.lean ====
section
/-! SUPPORT. What a command can do, said once: the inversion lemmas of the shared endings and of every command, and the
spec lemma of the round loop. -/

namespace Sys2Proof.Machine

@[simp] theorem raise_eq (e : Err) (s : State) : raise e s = .next (s.withErr e) := rfl

@[simp] theorem complete_eq (s : State) : complete s = .next (s.withErr .ok) := rfl

@[simp] theorem isOpen_eq_true (s : State) : s.isOpen = true ↔ s.phase = .idle ∧ s.valid = false := by
  simp [State.isOpen]

@[simp] theorem isOpen_eq_false (s : State) : s.isOpen = false ↔ s.phase ≠ .idle ∨ s.valid = true := by
  simp [State.isOpen, Classical.or_iff_not_imp_left]

@[simp] theorem isDegenerate_eq_true (s : State) :
    s.isDegenerate = true ↔ s.valid = false ∨ s.bitCount = 0 ∨ s.hashRounds = 0 := by
  simp [State.isDegenerate, or_assoc]

@[simp] theorem isDegenerate_eq_false (s : State) :
    s.isDegenerate = false ↔ s.valid = true ∧ s.bitCount ≠ 0 ∧ s.hashRounds ≠ 0 := by
  simp [State.isDegenerate, and_assoc]

@[simp] theorem keyTooLong_eq_true (s : State) : keyTooLong s = true ↔ s.params.keyCap < s.keyLen.toNat := by
  simp [keyTooLong]

@[simp] theorem keyTooLong_eq_false (s : State) : keyTooLong s = false ↔ s.keyLen.toNat ≤ s.params.keyCap := by
  simp [keyTooLong]

/-- What the round loop can answer when it answers a next state: the rounds passed from `i` on, and the state it leaves. -/
structure RoundsEnd (h1 h2 : U32) (left i : Nat) (s t : State) : Prop where
  result_trace : ∃ passed last, i ≤ passed ∧ passed ≤ i + left ∧
    (∀ j, i ≤ j → j < passed →
      bitTest s (reduceIndex (combine h1 h2 (BitVec.ofNat 32 j)) s.bitCount) = some true) ∧
    (passed < i + left → last = passed ∧
      bitTest s (reduceIndex (combine h1 h2 (BitVec.ofNat 32 passed)) s.bitCount) = some false) ∧
    (passed = i + left → 0 < left → last = passed - 1) ∧
    t = { s with
      round := BitVec.ofNat 32 passed
      combined := if left = 0 then s.combined else combine h1 h2 (BitVec.ofNat 32 last)
      bitIndex := if left = 0 then s.bitIndex else
        reduceIndex (combine h1 h2 (BitVec.ofNat 32 last)) s.bitCount
      result := decide (passed = i + left)
      degen := false
      err := .ok }

/-- The inversion lemma of the round loop (R154 to R156). -/
theorem runRounds_next (h1 h2 : U32) (left i : Nat) (s t : State) (h : runRounds h1 h2 left i s = .next t) :
    RoundsEnd h1 h2 left i s t := by
  induction left generalizing i s with
  | zero =>
    simp only [runRounds, complete_eq, Host.Outcome.next.injEq] at h
    subst h
    exact ⟨i, i, le_refl _, le_refl _, fun j h1 h2 => by omega, fun h => by omega, fun _ h => by omega, by
      simp [State.withErr, State.withResult]⟩
  | succ left ih =>
    rw [runRounds] at h
    dsimp only at h
    split at h
    · cases h
    · rename_i hb
      obtain ⟨passed, last, h1', h2', h3, h4, h5, h6⟩ := (ih _ _ h).result_trace
      have hc : ∀ b, bitTest (s.withIndex (combine h1 h2 (BitVec.ofNat 32 i))
          (reduceIndex (combine h1 h2 (BitVec.ofNat 32 i)) s.bitCount)) b = bitTest s b :=
        fun b => bitTest_congr rfl (fun _ => rfl) b
      simp only [hc, State.withIndex_bitCount] at h3 h4
      refine ⟨passed, if left = 0 then i else last, by omega, by omega, fun j hj1 hj2 => ?_, fun hlt => ?_,
        fun heq _ => ?_, ?_⟩
      · rcases Nat.lt_or_ge i j with hij | hij
        · exact h3 j hij hj2
        · rw [show j = i by omega]
          exact hb
      · obtain ⟨hl, hf⟩ := h4 (by omega)
        rw [if_neg (by omega)]
        exact ⟨hl, hf⟩
      · split_ifs with h0
        · omega
        · rw [h5 (by omega) (by omega)]
      · subst h6
        rcases Nat.eq_zero_or_pos left with h0 | h0
        · subst h0
          simp [State.withIndex]
        · have hne : left ≠ 0 := by omega
          simp [State.withIndex, hne, Nat.add_assoc, Nat.add_comm 1 left]
    · rename_i hb
      simp only [complete_eq, Host.Outcome.next.injEq] at h
      subst h
      exact ⟨i, i, le_refl _, by omega, fun j h1 h2 => by omega, fun _ => ⟨rfl, hb⟩, fun h => by omega, by
        simp [State.withErr, State.withResult, State.withIndex]⟩

/-- The round loop answers a next state when every bit it may test lies in BITMEM. -/
theorem runRounds_completes (h1 h2 : U32) (left i : Nat) (s : State) (hn : s.bitCount ≠ 0)
    (hcap : ceil8 s.bitCount ≤ s.params.bitmemCap) : ∃ t, runRounds h1 h2 left i s = .next t := by
  induction left generalizing i s with
  | zero => exact ⟨_, rfl⟩
  | succ left ih =>
    rw [runRounds]
    dsimp only
    have hlt := byteOffset_lt_ceil8 s.bitCount _ (reduceIndex_lt (combine h1 h2 (BitVec.ofNat 32 i)) s.bitCount hn)
    rw [bitTest_of_lt s _ (by omega)]
    cases (bitmemByte s ((reduceIndex (combine h1 h2 (BitVec.ofNat 32 i)) s.bitCount).toNat / 8)).getLsbD
        ((reduceIndex (combine h1 h2 (BitVec.ofNat 32 i)) s.bitCount).toNat % 8)
    · exact ⟨_, rfl⟩
    · exact ih _ _ hn hcap

/-- The round loop never refuses, and its only fault is an absent BITMEM byte. -/
theorem runRounds_answer (h1 h2 : U32) (left i : Nat) (s : State) :
    runRounds h1 h2 left i s = .fault .bitmemOffsetAbsent ∨ ∃ t, runRounds h1 h2 left i s = .next t := by
  induction left generalizing i s with
  | zero => exact .inr ⟨_, rfl⟩
  | succ left ih =>
    rw [runRounds]
    dsimp only
    split
    · exact .inl rfl
    · exact ih _ _
    · exact .inr ⟨_, rfl⟩

/-- What LOAD can do (R171). -/
theorem execLoad_cases (s t : State) (h : execLoad s = .next t) :
    (s.isOpen = true ∧
      t = ({ s.withHeader 0 0 0 with ldCnt := 0, ldstat := .none, phase := .ldHeader }).withErr .ok) ∨
    (s.isOpen = false ∧ t = s.withErr .state) := by
  unfold execLoad at h
  split_ifs at h with ho
  · exact .inl ⟨ho, by simpa using h.symm⟩
  · exact .inr ⟨Bool.eq_false_iff.mpr ho, by simpa using h.symm⟩

/-- What LOADEND can do (R177). -/
theorem execLoadEnd_cases (s t : State) (h : execLoadEnd s = .next t) :
    (s.phase = .ldHeader ∧ t = (loadFail .hdrShort s).withErr .ok) ∨
    (s.phase = .ldPayload ∧ t = (loadFail .payloadShort s).withErr .ok) ∨
    (s.phase = .idle ∧ t = s.withErr .ok) := by
  unfold execLoadEnd at h
  split at h <;> simp_all

/-- What LOADABORT can do (R176). -/
theorem execLoadAbort_cases (s t : State) (h : execLoadAbort s = .next t) :
    (s.phase ≠ .idle ∧ t = (loadFail .io s).withErr .ok) ∨ (s.phase = .idle ∧ t = s.withErr .ok) := by
  unfold execLoadAbort at h
  split_ifs at h <;> simp_all

/-- What SEAL can do (R180). -/
theorem execSeal_cases (s t : State) (h : execSeal s = .next t) :
    (s.isOpen = true ∧ ceil8 s.bitCount ≤ s.params.bitmemCap ∧
      t = ({ s with valid := true, ldstat := .none }).withErr .ok) ∨
    (s.isOpen = true ∧ s.params.bitmemCap < ceil8 s.bitCount ∧ t = s.withErr .alloc) ∨
    (s.isOpen = false ∧ t = s.withErr .state) := by
  unfold execSeal at h
  split_ifs at h with ho hc
  · exact .inr (.inl ⟨ho, hc, by simpa using h.symm⟩)
  · exact .inl ⟨ho, by omega, by simpa using h.symm⟩
  · exact .inr (.inr ⟨Bool.eq_false_iff.mpr ho, by simpa using h.symm⟩)

/-- What RELEASE can do (R181). -/
theorem execRelease_cases (s t : State) (h : execRelease s = .next t) :
    (s.phase ≠ .idle ∧ t = s.withErr .state) ∨
    (s.phase = .idle ∧
      t = ({ (s.withHeader 0 0 0).dropBitmem with valid := false, ldCnt := 0, ldstat := .none }).withErr .ok) := by
  unfold execRelease at h
  split_ifs at h with hp
  · exact .inl ⟨hp, by simpa using h.symm⟩
  · exact .inr ⟨by simpa using hp, by simpa using h.symm⟩

/-- What HASH can do (R118). -/
theorem execHash_cases (s t : State) (h : execHash s = .next t) :
    (s.keyLen.toNat ≤ s.params.keyCap ∧
      t = ({ s with hashOut := seededHash (key s) s.seed }).withErr .ok) ∨
    (s.params.keyCap < s.keyLen.toNat ∧ t = s.withErr .range) := by
  unfold execHash at h
  split_ifs at h with hk
  · exact .inr ⟨by simpa using hk, by simpa using h.symm⟩
  · exact .inl ⟨by simpa using hk, by simpa using h.symm⟩

/-- What HASHPAIR can do (R119). -/
theorem execHashPair_cases (s t : State) (h : execHashPair s = .next t) :
    (s.keyLen.toNat ≤ s.params.keyCap ∧
      t = ({ s with h1 := baseHash1 (key s), h2 := baseHash2 (key s) }).withErr .ok) ∨
    (s.params.keyCap < s.keyLen.toNat ∧ t = s.withErr .range) := by
  unfold execHashPair at h
  split_ifs at h with hk
  · exact .inr ⟨by simpa using hk, by simpa using h.symm⟩
  · exact .inl ⟨by simpa using hk, by simpa using h.symm⟩

/-- What INDEX can do (R135). -/
theorem execIndex_cases (s t : State) (h : execIndex s = .next t) :
    (s.bitCount = 0 ∧ t = s.withErr .degen) ∨
    (s.bitCount ≠ 0 ∧ t = (s.withIndex (combine s.h1 s.h2 s.round)
      (reduceIndex (combine s.h1 s.h2 s.round) s.bitCount)).withErr .ok) := by
  unfold execIndex at h
  split_ifs at h with hn
  · exact .inl ⟨hn, by simpa using h.symm⟩
  · exact .inr ⟨hn, by simpa using h.symm⟩

/-- What BITTEST can do (R138). -/
theorem execBitTest_cases (s t : State) (h : execBitTest s = .next t) :
    (s.valid = false ∧ t = s.withErr .state) ∨
    (s.valid = true ∧ s.bitCount.toNat ≤ s.bitIndex.toNat ∧ t = s.withErr .range) ∨
    (s.valid = true ∧ s.bitIndex.toNat < s.bitCount.toNat ∧
      ∃ r, bitTest s s.bitIndex = some r ∧ t = (s.withResult r false).withErr .ok) := by
  unfold execBitTest at h
  split_ifs at h with hv hr
  · exact .inl ⟨hv, by simpa using h.symm⟩
  · exact .inr (.inl ⟨by simpa using hv, by simpa [BitVec.le_def] using hr, by simpa using h.symm⟩)
  · refine .inr (.inr ⟨by simpa using hv, by simpa [BitVec.le_def] using hr, ?_⟩)
    split at h
    · cases h
    · rename_i r hb
      exact ⟨r, hb, by simpa using h.symm⟩

/-- What CONTAINS can do (R151, R152). -/
theorem execContains_cases (s t : State) (h : execContains s = .next t) :
    (s.isDegenerate = true ∧ t = (s.withResult false true).withErr .ok) ∨
    (s.isDegenerate = false ∧ s.params.keyCap < s.keyLen.toNat ∧ t = s.withErr .range) ∨
    (s.isDegenerate = false ∧ s.keyLen.toNat ≤ s.params.keyCap ∧
      RoundsEnd (baseHash1 (key s)) (baseHash2 (key s)) s.hashRounds.toNat 0
        { s with h1 := baseHash1 (key s), h2 := baseHash2 (key s) } t) := by
  unfold execContains at h
  split_ifs at h with hd hk
  · exact .inl ⟨hd, by simpa using h.symm⟩
  · exact .inr (.inl ⟨by simpa using hd, by simpa using hk, by simpa using h.symm⟩)
  · exact .inr (.inr ⟨by simpa using hd, by simpa using hk, runRounds_next _ _ _ _ _ _ h⟩)

/-- What a command leaves alone, whatever it does: the parameters, the host's side, KEYBUF, `LD_HDR` and the registers
that only the host writes. -/
theorem exec_keeps (i : Instr) (s t : State) (h : exec i s = .next t) :
    t.params = s.params ∧ t.inbox = s.inbox ∧ t.outbox = s.outbox ∧ t.keybuf = s.keybuf ∧ t.ldHdr = s.ldHdr ∧
    t.resetEpoch = s.resetEpoch ∧ t.keyLen = s.keyLen ∧ t.kAddr = s.kAddr ∧ t.seed = s.seed ∧
    t.bmAddr = s.bmAddr := by
  cases i with
  | load => rcases execLoad_cases s t h with ⟨_, rfl⟩ | ⟨_, rfl⟩ <;> simp
  | loadEnd => rcases execLoadEnd_cases s t h with ⟨_, rfl⟩ | ⟨_, rfl⟩ | ⟨_, rfl⟩ <;> simp
  | loadAbort => rcases execLoadAbort_cases s t h with ⟨_, rfl⟩ | ⟨_, rfl⟩ <;> simp
  | sealInstance => rcases execSeal_cases s t h with ⟨_, _, rfl⟩ | ⟨_, _, rfl⟩ | ⟨_, rfl⟩ <;> simp
  | release => rcases execRelease_cases s t h with ⟨_, rfl⟩ | ⟨_, rfl⟩ <;> simp
  | hash => rcases execHash_cases s t h with ⟨_, rfl⟩ | ⟨_, rfl⟩ <;> simp
  | hashPair => rcases execHashPair_cases s t h with ⟨_, rfl⟩ | ⟨_, rfl⟩ <;> simp
  | index => rcases execIndex_cases s t h with ⟨_, rfl⟩ | ⟨_, rfl⟩ <;> simp
  | bitTest => rcases execBitTest_cases s t h with ⟨_, rfl⟩ | ⟨_, _, rfl⟩ | ⟨_, _, r, _, rfl⟩ <;> simp
  | contains =>
    rcases execContains_cases s t h with ⟨_, rfl⟩ | ⟨_, _, rfl⟩ | ⟨_, _, ⟨_, _, _, _, _, _, _, rfl⟩⟩ <;> simp

end Sys2Proof.Machine
end

