-- ==== Sys2Proof/Laws/PerInstr.lean ====
section
/-! SUPPORT. What holds of every command as syntax, one lemma per command: it is well-formed, its word is a well-formed
command word, and its word decodes to it. -/

namespace Sys2Proof.Laws.RoundTrip

/-- The command is well-formed, and so is its word, which decodes to it and to nothing else (R91, R92, R94). -/
def Statement (i : Instr) : Prop :=
  i.wellFormed = true ∧ cmdWordWellFormed (encode i) = true ∧ decode (encode i) = some i

theorem load : Statement .load := by unfold Statement; decide
theorem loadEnd : Statement .loadEnd := by unfold Statement; decide
theorem loadAbort : Statement .loadAbort := by unfold Statement; decide
theorem sealInstance : Statement .sealInstance := by unfold Statement; decide
theorem release : Statement .release := by unfold Statement; decide
theorem hash : Statement .hash := by unfold Statement; decide
theorem hashPair : Statement .hashPair := by unfold Statement; decide
theorem index : Statement .index := by unfold Statement; decide
theorem bitTest : Statement .bitTest := by unfold Statement; decide
theorem contains : Statement .contains := by unfold Statement; decide

end Sys2Proof.Laws.RoundTrip
end

