-- ==== Sys2Proof/Laws/Ports.lean ====
section
/-! SUPPORT. What a host transaction and a step can do, said once. -/

namespace Sys2Proof.Machine

@[simp] theorem decodeReg_encodeReg (r : Reg) : decodeReg (encodeReg r) = some r := by
  cases r <;> rfl

/-- A number decodes to a register exactly when it is that register's number (R21). -/
theorem decodeReg_eq_some (n : Nat) (r : Reg) : decodeReg n = some r ↔ n = encodeReg r := by
  constructor
  · intro h
    unfold decodeReg at h
    split at h <;> simp only [Option.some.injEq, reduceCtorEq] at h <;> subst h <;> rfl
  · rintro rfl
    exact decodeReg_encodeReg r

theorem decodeReg_eq_none (n : Nat) (h : 19 ≤ n) : decodeReg n = none := by
  cases hd : decodeReg n with
  | none => rfl
  | some r =>
    have hn := (decodeReg_eq_some n r).mp hd
    cases r <;> simp only [encodeReg] at hn <;> omega

theorem hostWrite_reg (r : Reg) (v : U64) (s : State) : hostWrite (encodeReg r) v s = writeReg r v s := by
  simp [hostWrite]

/-- A step that answers a next state: the block was idle, or it handled its first event. -/
theorem step_next (s t : State) (h : step s = .next t) :
    (s.inbox = [] ∧ t = s) ∨ ∃ e rest, s.inbox = e :: rest ∧ handle e { s with inbox := rest } = .next t := by
  unfold step handleNext at h
  split at h
  · rename_i hi
    exact .inl ⟨hi, by simpa using h.symm⟩
  · rename_i e rest hi
    exact .inr ⟨e, rest, hi, h⟩

/-- A handled event that answers a next state: reset, or the transaction it resolves to. -/
theorem handle_next (e : HostEvent) (s t : State) (h : handle e s = .next t) :
    (e = .reset ∧ t = applyReset s) ∨
    ∃ tr, e.resolve s.params.regBase = some tr ∧ transact tr s = .next t := by
  cases e with
  | transaction tr => exact .inr ⟨tr, rfl, h⟩
  | reset => exact .inl ⟨rfl, by simpa [handle] using h.symm⟩
  | bus a =>
    simp only [handle, busAccess] at h
    split_ifs at h with hr
    split at h
    · rename_i tr htr
      exact .inr ⟨tr, by simp [HostEvent.resolve, hr, htr], h⟩
    · cases h

/-- A transaction that answers a next state: a read, an ignored write, or a write to a register. -/
theorem transact_next (tr : Transaction) (s t : State) (h : transact tr s = .next t) :
    (∃ n, tr = .read n ∧ t = hostRead n s) ∨
    (∃ n v, tr = .write n v ∧ decodeReg n = none ∧ t = s) ∨
    ∃ n v r, tr = .write n v ∧ decodeReg n = some r ∧ writeReg r v s = .next t := by
  cases tr with
  | read n => exact .inl ⟨n, rfl, by simpa [transact] using h.symm⟩
  | write n v =>
    simp only [transact, hostWrite] at h
    split at h
    · rename_i r hr
      exact .inr (.inr ⟨n, v, r, rfl, hr, h⟩)
    · rename_i hr
      exact .inr (.inl ⟨n, v, rfl, hr, by simpa using h.symm⟩)

/-- A CMD write that answers a next state: an illegal word, or a command (R38, R93). -/
theorem command_next (w : U32) (s t : State) (h : command w s = .next t) :
    (decode w = none ∧ t = s.withErr .illegal) ∨ ∃ i, decode w = some i ∧ exec i s = .next t := by
  unfold command at h
  split at h
  · rename_i i hi
    exact .inr ⟨i, hi, h⟩
  · rename_i hi
    exact .inl ⟨hi, by simpa using h.symm⟩

/-- What the header checks can do (R174). -/
theorem headerChecks_cases (s : State) :
    (s.bitCount = 0 ∧ headerChecks s = loadFail .empty s) ∨
    (s.bitCount ≠ 0 ∧ s.params.bitmemCap < ceil8 s.bitCount ∧ headerChecks s = loadFail .alloc s) ∨
    (s.bitCount ≠ 0 ∧ ceil8 s.bitCount ≤ s.params.bitmemCap ∧ headerChecks s = { s with phase := .ldPayload }) := by
  unfold headerChecks
  split_ifs with h1 h2
  · exact .inl ⟨h1, rfl⟩
  · exact .inr (.inl ⟨h1, h2, rfl⟩)
  · exact .inr (.inr ⟨h1, by omega, rfl⟩)

/-- A header byte is read back where it was stored, and every other header byte stays (R46, R172). -/
theorem ldHdrByte_acceptHeaderByte (d : Byte) (s : State) (k : Nat) :
    ldHdrByte (acceptHeaderByte d s) k = if k = s.ldCnt.toNat then d else ldHdrByte s k := by
  split_ifs with h
  · subst h
    simp [ldHdrByte]
  · simp [ldHdrByte, readByte_store_other _ _ _ _ _ _ h]

/-- A payload byte is read back where it was stored, and every other BITMEM byte stays (R68, R172). -/
theorem bitmemByte_acceptPayloadByte (d : Byte) (s : State) (k : Nat) :
    bitmemByte (acceptPayloadByte d s) k = if k = s.ldCnt.toNat - 20 then d else bitmemByte s k := by
  split_ifs with h
  · subst h
    simp [bitmemByte]
  · simp [bitmemByte, readByte_store_other _ _ _ _ _ _ h]

/-- What a header byte that answers a next state does (R172 to R174). -/
theorem headerByte_next (d : Byte) (s t : State) (h : headerByte d s = .next t) :
    s.ldCnt.toNat < 20 ∧
    ((s.ldCnt.toNat < 19 ∧ t = acceptHeaderByte d s) ∨
     (s.ldCnt.toNat = 19 ∧ t = headerComplete (acceptHeaderByte d s))) := by
  unfold headerByte at h
  split_ifs at h with hlt
  refine ⟨hlt, ?_⟩
  simp only [Host.Outcome.next.injEq] at h
  have h20 : s.ldCnt + 1 = 20 ↔ s.ldCnt.toNat = 19 := by
    rw [← BitVec.toNat_inj]
    simp
    omega
  split_ifs at h with hc
  · exact .inr ⟨h20.mp hc, h.symm⟩
  · refine .inl ⟨?_, h.symm⟩
    have := mt h20.mpr hc
    omega

/-- What a payload byte that answers a next state does (R172, R175). -/
theorem payloadByte_next (d : Byte) (s t : State) (h : payloadByte d s = .next t) :
    20 ≤ s.ldCnt.toNat ∧ s.ldCnt.toNat - 20 < s.params.bitmemCap ∧
    (((s.ldCnt + 1).toNat ≠ 20 + ceil8 s.bitCount ∧ t = acceptPayloadByte d s) ∨
     ((s.ldCnt + 1).toNat = 20 + ceil8 s.bitCount ∧
      t = loadComplete (acceptPayloadByte d s))) := by
  unfold payloadByte at h
  split_ifs at h with hlt
  refine ⟨hlt.1, hlt.2, ?_⟩
  simp only [Host.Outcome.next.injEq] at h
  split_ifs at h with hc
  · exact .inr ⟨hc, h.symm⟩
  · exact .inl ⟨hc, h.symm⟩

/-- What a STREAM byte that answers a next state does, by phase (R172, R182). -/
theorem streamByte_next (d : Byte) (s t : State) (h : streamByte d s = .next t) :
    (s.phase = .idle ∧ t = s) ∨ (s.phase = .ldHeader ∧ headerByte d s = .next t) ∨
    (s.phase = .ldPayload ∧ payloadByte d s = .next t) := by
  unfold streamByte at h
  split at h
  · rename_i hp
    exact .inl ⟨hp, by simpa using h.symm⟩
  · rename_i hp
    exact .inr (.inl ⟨hp, h⟩)
  · rename_i hp
    exact .inr (.inr ⟨hp, h⟩)

/-- What a KDATA write does (R43). -/
theorem pushKeyByte_cases (v : Byte) (s : State) :
    (s.kAddr.toNat < s.params.keyCap ∧
      pushKeyByte v s = { s with keybuf := Memory.store s.keybuf s.kAddr.toNat v, kAddr := s.kAddr + 1 }) ∨
    (s.params.keyCap ≤ s.kAddr.toNat ∧ pushKeyByte v s = s) := by
  unfold pushKeyByte
  split_ifs with h
  · exact .inl ⟨h, rfl⟩
  · exact .inr ⟨by omega, rfl⟩

/-- What a BMDATA write does (R48). -/
theorem pushBitmemByte_cases (v : Byte) (s : State) :
    (s.isOpen = true ∧ s.bmAddr.toNat < s.params.bitmemCap ∧
      pushBitmemByte v s = { s with bitmem := Memory.store s.bitmem s.bmAddr.toNat v, bmAddr := s.bmAddr + 1 }) ∨
    ((s.isOpen = false ∨ s.params.bitmemCap ≤ s.bmAddr.toNat) ∧ pushBitmemByte v s = s) := by
  unfold pushBitmemByte
  split_ifs with h
  · exact .inl ⟨h.1, h.2, rfl⟩
  · refine .inr ⟨?_, rfl⟩
    rcases Bool.eq_false_or_eq_true s.isOpen with ho | ho
    · exact .inr (by simpa [ho] using h)
    · exact .inl ho

/-- The completed header is checked as R174 says, with the three fields of R173. -/
theorem headerComplete_fields (s : State) : ∃ e h n, e = headerEntries (ldHdrByte s) ∧
    h = headerHashRounds (ldHdrByte s) ∧ n = headerBitCount (ldHdrByte s) ∧
    headerComplete s = headerChecks (s.withHeader e h n) :=
  ⟨_, _, _, rfl, rfl, rfl, rfl⟩

/-- What the header checks can do to a state with header fields just made (R174). -/
theorem headerChecks_withHeader (s : State) (e : U64) (h : U32) (n : U64) :
    (n = 0 ∧ headerChecks (s.withHeader e h n) = loadFail .empty (s.withHeader e h n)) ∨
    (n ≠ 0 ∧ s.params.bitmemCap < ceil8 n ∧
      headerChecks (s.withHeader e h n) = loadFail .alloc (s.withHeader e h n)) ∨
    (n ≠ 0 ∧ ceil8 n ≤ s.params.bitmemCap ∧
      headerChecks (s.withHeader e h n) = { s.withHeader e h n with phase := .ldPayload }) := by
  rcases headerChecks_cases (s.withHeader e h n) with ⟨ha, hb⟩ | ⟨ha, hc, hb⟩ | ⟨ha, hc, hb⟩
  · exact .inl ⟨ha, hb⟩
  · exact .inr (.inl ⟨ha, hc, hb⟩)
  · exact .inr (.inr ⟨ha, hc, hb⟩)

/-- What a STREAM byte that answers a next state can do, said once (R172 to R175, R182). -/
inductive StreamEffect (d : Byte) (s t : State) : Prop where
  | discarded (hp : s.phase = .idle) (ht : t = s)
  | header (hp : s.phase = .ldHeader) (hc : s.ldCnt.toNat < 19) (ht : t = acceptHeaderByte d s)
  | badHeader (hp : s.phase = .ldHeader) (hc : s.ldCnt.toNat = 19) (code : LdStat) (e : U64) (h : U32) (n : U64)
      (hcode : code = .empty ∨ code = .alloc) (ht : t = loadFail code ((acceptHeaderByte d s).withHeader e h n))
  | goodHeader (hp : s.phase = .ldHeader) (hc : s.ldCnt.toNat = 19) (e : U64) (h : U32) (n : U64) (hn : n ≠ 0)
      (hfit : ceil8 n ≤ s.params.bitmemCap)
      (ht : t = { (acceptHeaderByte d s).withHeader e h n with phase := .ldPayload })
  | payload (hp : s.phase = .ldPayload) (h20 : 20 ≤ s.ldCnt.toNat) (hc : s.ldCnt.toNat - 20 < s.params.bitmemCap)
      (hmore : (s.ldCnt + 1).toNat ≠ 20 + ceil8 s.bitCount) (ht : t = acceptPayloadByte d s)
  | complete (hp : s.phase = .ldPayload) (h20 : 20 ≤ s.ldCnt.toNat) (hc : s.ldCnt.toNat - 20 < s.params.bitmemCap)
      (hlast : (s.ldCnt + 1).toNat = 20 + ceil8 s.bitCount) (ht : t = loadComplete (acceptPayloadByte d s))

/-- A STREAM byte that answers a next state has one of the effects of `StreamEffect`. -/
theorem streamByte_effect (d : Byte) (s t : State) (h : streamByte d s = .next t) : StreamEffect d s t := by
  rcases streamByte_next d s t h with ⟨hp, ht⟩ | ⟨hp, h⟩ | ⟨hp, h⟩
  · exact .discarded hp ht
  · rcases headerByte_next d s t h with ⟨_, ⟨hc, ht⟩ | ⟨hc, ht⟩⟩
    · exact .header hp hc ht
    · obtain ⟨e, g, n, _, _, _, hh⟩ := headerComplete_fields (acceptHeaderByte d s)
      rw [hh] at ht
      rcases headerChecks_withHeader (acceptHeaderByte d s) e g n with ⟨_, he⟩ | ⟨_, _, he⟩ | ⟨hn, hf, he⟩
      · exact .badHeader hp hc _ _ _ _ (.inl rfl) (ht.trans he)
      · exact .badHeader hp hc _ _ _ _ (.inr rfl) (ht.trans he)
      · exact .goodHeader hp hc _ _ _ hn hf (ht.trans he)
  · rcases payloadByte_next d s t h with ⟨h20, hc, ⟨hm, ht⟩ | ⟨hl, ht⟩⟩
    · exact .payload hp h20 hc hm ht
    · exact .complete hp h20 hc hl ht

/-- The command of a write to register 0 (R38). -/
theorem commandOf_of_resolve {base : Nat} {e : HostEvent} {v : U64} (h : e.resolve base = some (.write 0 v)) :
    commandOf base e = decode (v.setWidth 32) := by
  simp [commandOf, h]

/-- A write whose number decodes to a register writes to that register (R21). -/
theorem writesTo_of_resolve {base : Nat} {e : HostEvent} {n : Nat} {v : U64} {r : Reg}
    (h : e.resolve base = some (.write n v)) (hr : decodeReg n = some r) : writesTo base r e = true := by
  simp [writesTo, h, hr]

/-- What a step that handles an event can do, said once: reset, a read, an ignored write, an illegal word, a command, a
STREAM byte, or a write to another register. `s` is the state with the event taken from the inbox. -/
inductive EventEffect (base : Nat) (e : HostEvent) (s t : State) : Prop where
  | reset (he : e = .reset) (ht : t = applyReset s)
  | read (n : Nat) (he : e.resolve base = some (.read n)) (ht : t = hostRead n s)
  | ignored (n : Nat) (v : U64) (he : e.resolve base = some (.write n v)) (hn : decodeReg n = none) (ht : t = s)
  | illegal (v : U64) (hc : commandOf base e = none) (hw : writesTo base .cmd e = true) (ht : t = s.withErr .illegal)
  | command (i : Instr) (hc : commandOf base e = some i) (hw : writesTo base .cmd e = true) (ht : exec i s = .next t)
  | stream (d : Byte) (hw : writesTo base .stream e = true) (ht : streamByte d s = .next t)
  | write (r : Reg) (v : U64) (hw : writesTo base r e = true) (h1 : r ≠ .cmd) (h2 : r ≠ .stream)
      (ht : writeReg r v s = .next t)

/-- A step that answers a next state and handles an event has one of the effects of `EventEffect`. -/
theorem step_event (s t : State) (e : HostEvent) (rest : List HostEvent) (hs : s.inbox = e :: rest)
    (h : step s = .next t) : EventEffect s.params.regBase e { s with inbox := rest } t := by
  rcases step_next s t h with ⟨h0, _⟩ | ⟨e', rest', h1, h2⟩
  · rw [hs] at h0; cases h0
  · rw [hs] at h1; injection h1 with ha hb; subst ha; subst hb
    rcases handle_next _ _ _ h2 with ⟨a, b⟩ | ⟨tr, a, b⟩
    · exact .reset a b
    · change HostEvent.resolve s.params.regBase e = _ at a
      rcases transact_next _ _ _ b with ⟨n, rfl, c⟩ | ⟨n, v, rfl, c, d⟩ | ⟨n, v, r, rfl, c, d⟩
      · exact .read n a c
      · exact .ignored n v a c d
      · have hw := writesTo_of_resolve a c
        cases r with
        | cmd =>
          have hn := (decodeReg_eq_some n .cmd).mp c
          simp only [encodeReg] at hn; subst hn
          rcases command_next _ _ _ d with ⟨x, y⟩ | ⟨i, x, y⟩
          · exact .illegal v (by rw [commandOf_of_resolve a, x]) hw y
          · exact .command i (by rw [commandOf_of_resolve a, x]) hw y
        | stream => exact .stream (v.setWidth 8) hw d
        | _ => exact .write _ v hw (by simp) (by simp) d

/-- What a write to a register other than CMD and STREAM keeps. -/
theorem writeReg_keeps (r : Reg) (v : U64) (s t : State) (h1 : r ≠ .cmd) (h2 : r ≠ .stream)
    (h : writeReg r v s = .next t) :
    t.params = s.params ∧ t.inbox = s.inbox ∧ t.outbox = s.outbox ∧ t.valid = s.valid ∧ t.phase = s.phase ∧
    t.result = s.result ∧ t.degen = s.degen ∧ t.err = s.err ∧ t.ldstat = s.ldstat ∧ t.ldCnt = s.ldCnt ∧
    t.bitmemEpoch = s.bitmemEpoch ∧ t.resetEpoch = s.resetEpoch ∧ t.ldHdr = s.ldHdr := by
  cases r <;> simp only [writeReg, Host.Outcome.next.injEq, ne_eq, not_true_eq_false] at h h1 h2 <;> subst h
  case kData => rcases pushKeyByte_cases (v.setWidth 8) s with ⟨_, h⟩ | ⟨_, h⟩ <;> rw [h] <;> simp
  case bmData => rcases pushBitmemByte_cases (v.setWidth 8) s with ⟨_, _, h⟩ | ⟨_, h⟩ <;> rw [h] <;> simp
  all_goals (try split) <;> simp

/-- A write to a register other than CMD and STREAM leaves the instance alone unless Open. -/
theorem writeReg_keeps_instance (r : Reg) (v : U64) (s t : State) (h1 : r ≠ .cmd) (h2 : r ≠ .stream)
    (ho : s.isOpen = false) (h : writeReg r v s = .next t) :
    t.entries = s.entries ∧ t.hashRounds = s.hashRounds ∧ t.bitCount = s.bitCount ∧ t.bitmem = s.bitmem := by
  cases r <;> simp only [writeReg, Host.Outcome.next.injEq, ne_eq, not_true_eq_false] at h h1 h2 <;> subst h
  case kData => rcases pushKeyByte_cases (v.setWidth 8) s with ⟨_, h⟩ | ⟨_, h⟩ <;> rw [h] <;> simp
  case bmData => rcases pushBitmemByte_cases (v.setWidth 8) s with ⟨a, _, h⟩ | ⟨_, h⟩ <;> (rw [h]; simp_all)
  all_goals ((try rw [if_neg (by simp [ho])]); simp)

end Sys2Proof.Machine
end

