-- ==== Sys2Proof/Laws/Run.lean ====
section
/-! SUPPORT. Runs of several steps: one step more, two runs in a row, one event taken from the inbox. -/

namespace Sys2Proof.Machine

/-- A run of any machine begins with its first step. -/
theorem run_succ (M : Host.Core) (k : Nat) (s t : M.State) (h : M.step s = .next t) : M.run (k + 1) s = M.run k t := by
  simp only [Host.Core.run, h]

/-- A run of any machine can be cut in two. -/
theorem run_add (M : Host.Core) (n m : Nat) (a b : M.State) (h : M.run n a = .next b) :
    M.run (n + m) a = M.run m b := by
  induction n generalizing a with
  | zero =>
    simp only [Host.Core.run, Host.Outcome.next.injEq] at h
    subst h
    simp
  | succ n ih =>
    rw [show n + 1 + m = (n + m) + 1 by omega]
    simp only [Host.Core.run] at h ⊢
    split at h
    · exact ih _ h
    · cases h
    · cases h

/-- A run of the block begins with its first step. -/
theorem core_run_succ (k : Nat) (s t : State) (h : step s = .next t) :
    Host.Core.run Sys2Proof.core (k + 1) s = Host.Core.run Sys2Proof.core k t :=
  run_succ Sys2Proof.core k s t h

/-- A run of the block can be cut in two. -/
theorem core_run_add (n m : Nat) (a b : State) (h : Host.Core.run Sys2Proof.core n a = .next b) :
    Host.Core.run Sys2Proof.core (n + m) a = Host.Core.run Sys2Proof.core m b :=
  run_add Sys2Proof.core n m a b h

theorem core_run_zero (s : State) : Host.Core.run Sys2Proof.core 0 s = .next s := rfl

/-- A run over a list of events begins by handling the first. -/
theorem core_run_events (e : HostEvent) (es rest : List HostEvent) (s t : State) (hs : s.inbox = e :: es ++ rest)
    (h : handle e { s with inbox := es ++ rest } = .next t) :
    Host.Core.run Sys2Proof.core (e :: es).length s = Host.Core.run Sys2Proof.core es.length t := by
  apply core_run_succ
  simp [step, handleNext, hs, h]

end Sys2Proof.Machine
end

