-- ==== Sys2Proof/Laws/Stream.lean ====
section
/-! SUPPORT. Runs of STREAM writes: inside the header, inside the payload, after the session; and the header fields packed
from big-endian bytes. -/

namespace Sys2Proof.Machine

/-- The STREAM write that delivers a byte (R49, R99). -/
def streamWrite (b : Byte) : HostEvent := .transaction (.write 17 (b.setWidth 64))

theorem b8 (b : Byte) : (b.setWidth 64).setWidth 8 = b := by simp

theorem handle_streamWrite (b : Byte) (s : State) : handle (streamWrite b) s = streamByte b s := by
  show streamByte ((b.setWidth 64).setWidth 8) s = _
  rw [show (b.setWidth 64).setWidth 8 = b by simp]

/-- A header byte before the 20th is stored (R172). -/
theorem streamByte_header (b : Byte) (s : State) (hp : s.phase = .ldHeader) (hl : s.ldCnt.toNat < 19) :
    streamByte b s = .next (acceptHeaderByte b s) := by
  have hc : ¬ (s.ldCnt + 1 = 20) := by
    rw [← BitVec.toNat_inj]; simp; omega
  simp only [streamByte, hp, headerByte, show s.ldCnt.toNat < 20 by omega, if_true, acceptHeaderByte_ldCnt, hc, if_false]

/-- A run of STREAM writes inside the header, before its 20th byte (R172): the bytes stand in `LD_HDR` from LDCNT on. -/
theorem run_header_bytes (bs : List Byte) : ∀ (rest : List HostEvent) (s : State), s.phase = .ldHeader →
    s.ldCnt.toNat + bs.length ≤ 19 → s.inbox = bs.map streamWrite ++ rest →
    ∃ t, Host.Core.run Sys2Proof.core bs.length s = .next t ∧
      t = { s with ldHdr := t.ldHdr, ldCnt := t.ldCnt, inbox := rest } ∧
      t.ldCnt.toNat = s.ldCnt.toNat + bs.length ∧
      (∀ k, ldHdrByte t k = if s.ldCnt.toNat ≤ k ∧ k < s.ldCnt.toNat + bs.length then
        bs.getD (k - s.ldCnt.toNat) 0 else ldHdrByte s k) := by
  induction bs with
  | nil =>
    intro rest s _ _ hs
    refine ⟨s, rfl, by apply State.ext <;> simp; simpa [streamWrite] using hs, by simp, ?_⟩
    intro k; rw [if_neg]; simp
  | cons b bs ih =>
    intro rest s hp hl hs
    have hl' : s.ldCnt.toNat + (bs.length + 1) ≤ 19 := by simpa using hl
    have hadd : (s.ldCnt + 1).toNat = s.ldCnt.toNat + 1 := by simp; omega
    set s1 : State := acceptHeaderByte b { s with inbox := bs.map streamWrite ++ rest } with hs1
    have hh : handle (streamWrite b) { s with inbox := bs.map streamWrite ++ rest } = .next s1 := by
      rw [handle_streamWrite]; exact streamByte_header b _ hp (show s.ldCnt.toNat < 19 by omega)
    have h1 := core_run_events (streamWrite b) (bs.map streamWrite) rest s s1 (by simpa [streamWrite] using hs) hh
    have e1 : s1.ldCnt.toNat = s.ldCnt.toNat + 1 := by simp only [hs1, acceptHeaderByte_ldCnt]; exact hadd
    obtain ⟨t, ht, h2, h3, h4⟩ := ih rest s1 (by simpa [hs1] using hp) (by omega) (by simp [hs1])
    refine ⟨t, ?_, ?_, ?_, ?_⟩
    · rw [← ht]; simpa [streamWrite] using h1
    · conv_lhs => rw [h2]
      apply State.ext <;> simp [hs1]
    · rw [h3, e1]; simp; omega
    · intro k
      rw [h4 k, e1]
      have hb : ldHdrByte s1 k = if k = s.ldCnt.toNat then b else ldHdrByte s k := by
        rw [hs1, ldHdrByte_acceptHeaderByte]; rfl
      rw [hb]
      by_cases hk0 : k = s.ldCnt.toNat
      · subst hk0
        rw [if_neg (by omega), if_pos (by simp)]
        simp
      · rw [if_neg hk0]
        by_cases hin : s.ldCnt.toNat + 1 ≤ k ∧ k < s.ldCnt.toNat + 1 + bs.length
        · rw [if_pos hin, if_pos (by simp; omega)]
          rw [show k - s.ldCnt.toNat = (k - (s.ldCnt.toNat + 1)) + 1 by omega]
          rfl
        · rw [if_neg hin, if_neg (by simp; omega)]

/-- A run of STREAM writes inside the payload, before its last byte (R172, R68): the bytes stand in BITMEM from LDCNT - 20
on. -/
theorem run_payload_bytes (bs : List Byte) : ∀ (rest : List HostEvent) (s : State), s.phase = .ldPayload →
    20 ≤ s.ldCnt.toNat → ceil8 s.bitCount ≤ s.params.bitmemCap →
    s.ldCnt.toNat + bs.length < 20 + ceil8 s.bitCount → s.inbox = bs.map streamWrite ++ rest →
    ∃ t, Host.Core.run Sys2Proof.core bs.length s = .next t ∧
      t = { s with bitmem := t.bitmem, ldCnt := t.ldCnt, inbox := rest } ∧
      t.ldCnt.toNat = s.ldCnt.toNat + bs.length ∧
      (∀ k, bitmemByte t k = if s.ldCnt.toNat - 20 ≤ k ∧ k < s.ldCnt.toNat - 20 + bs.length then
        bs.getD (k - (s.ldCnt.toNat - 20)) 0 else bitmemByte s k) := by
  induction bs with
  | nil =>
    intro rest s _ _ _ _ hs
    refine ⟨s, rfl, by apply State.ext <;> simp; simpa [streamWrite] using hs, by simp, ?_⟩
    intro k; rw [if_neg]; simp
  | cons b bs ih =>
    intro rest s hp h20 hcap hl hs
    have hl' : s.ldCnt.toNat + (bs.length + 1) < 20 + ceil8 s.bitCount := by simpa using hl
    have hb := ceil8_le s.bitCount
    have hadd : (s.ldCnt + 1).toNat = s.ldCnt.toNat + 1 := by simp; omega
    set s1 : State := acceptPayloadByte b { s with inbox := bs.map streamWrite ++ rest } with hs1
    have hh : handle (streamWrite b) { s with inbox := bs.map streamWrite ++ rest } = .next s1 := by
      rw [handle_streamWrite]
      have hg : 20 ≤ s.ldCnt.toNat ∧ s.ldCnt.toNat - 20 < s.params.bitmemCap := by omega
      have hc : ¬ (s.ldCnt.toNat + 1 = 20 + ceil8 s.bitCount) := by omega
      simp only [streamByte, hp, payloadByte, hg, and_self, if_true, acceptPayloadByte_ldCnt, hadd, acceptPayloadByte_bitCount, hc, if_false, hs1]
    have h1 := core_run_events (streamWrite b) (bs.map streamWrite) rest s s1 (by simpa [streamWrite] using hs) hh
    have e1 : s1.ldCnt.toNat = s.ldCnt.toNat + 1 := by simp only [hs1, acceptPayloadByte_ldCnt]; exact hadd
    obtain ⟨t, ht, h2, h3, h4⟩ := ih rest s1 (by simpa [hs1] using hp) (by omega) (by simpa [hs1] using hcap) (by rw [e1, hs1, acceptPayloadByte_bitCount]; show _ < 20 + ceil8 s.bitCount; omega) (by simp [hs1])
    refine ⟨t, ?_, ?_, ?_, ?_⟩
    · rw [← ht]; simpa [streamWrite] using h1
    · conv_lhs => rw [h2]
      apply State.ext <;> simp [hs1]
    · rw [h3, e1]; simp; omega
    · intro k
      rw [h4 k, e1]
      have hb : bitmemByte s1 k = if k = s.ldCnt.toNat - 20 then b else bitmemByte s k := by
        rw [hs1, bitmemByte_acceptPayloadByte]; rfl
      rw [hb]
      by_cases hk0 : k = s.ldCnt.toNat - 20
      · subst hk0
        rw [if_neg (by omega), if_pos (by simp)]
        simp
      · rw [if_neg hk0]
        by_cases hin : s.ldCnt.toNat + 1 - 20 ≤ k ∧ k < s.ldCnt.toNat + 1 - 20 + bs.length
        · rw [if_pos hin, if_pos (by simp; omega)]
          rw [show k - (s.ldCnt.toNat - 20) = (k - (s.ldCnt.toNat + 1 - 20)) + 1 by omega]
          rfl
        · rw [if_neg hin, if_neg (by simp; omega)]

/-- STREAM writes in phase IDLE only empty the inbox (R182). -/
theorem run_discarded_bytes (bs : List Byte) : ∀ (rest : List HostEvent) (s : State), s.phase = .idle → s.inbox = bs.map streamWrite ++ rest →
   Host.Core.run Sys2Proof.core bs.length s = .next { s with inbox := rest } := by
  induction bs with
  | nil =>
    intro rest s _ hs
    rw [show rest = s.inbox by simpa [streamWrite] using hs.symm]; rfl
  | cons b bs ih =>
    intro rest s hp hs
    have hh : handle (streamWrite b) { s with inbox := bs.map streamWrite ++ rest } = .next { s with inbox := bs.map streamWrite ++ rest } := by
      rw [handle_streamWrite]; simp only [streamByte, hp]
    have h1 := core_run_events (streamWrite b) (bs.map streamWrite) rest s _ (by simpa [streamWrite] using hs) hh
    have h2 := ih rest { s with inbox := bs.map streamWrite ++ rest } hp rfl
    rw [← h2]; simpa [streamWrite] using h1

/-- Eight bytes of a number, most significant first, are that number (R13, R65). -/
theorem be64_bytes (v : U64) (d : Nat → Byte) (hd : ∀ k, k < 8 → d k = BitVec.ofNat 8 (v.toNat / 2 ^ (8 * (7 - k)))) :
    be64 (d 0) (d 1) (d 2) (d 3) (d 4) (d 5) (d 6) (d 7) = v := by
  have hv := v.isLt
  rw [hd 0 (by omega), hd 1 (by omega), hd 2 (by omega), hd 3 (by omega), hd 4 (by omega), hd 5 (by omega),
    hd 6 (by omega), hd 7 (by omega)]
  apply BitVec.eq_of_toNat_eq
  simp only [be64, BitVec.toNat_ofNat]
  norm_num
  omega

/-- Four bytes of a number, most significant first, are that number (R13, R65). -/
theorem be32_bytes (v : U32) (d : Nat → Byte) (hd : ∀ k, k < 4 → d k = BitVec.ofNat 8 (v.toNat / 2 ^ (8 * (3 - k)))) :
    be32 (d 0) (d 1) (d 2) (d 3) = v := by
  have hv := v.isLt
  rw [hd 0 (by omega), hd 1 (by omega), hd 2 (by omega), hd 3 (by omega)]
  apply BitVec.eq_of_toNat_eq
  simp only [be32, BitVec.toNat_ofNat]
  norm_num
  omega

end Sys2Proof.Machine
end

