-- ==== Sys2Proof/Tests/Slice0.lean ====
section
/-! SUPPORT. The model's own tests: ill-formed terms refused, words written out from the encodings, the vectors of
`spec/95_test_vectors.md` (the expected values are the spec's), and for every statement with hypotheses a state that meets
them. -/

namespace Sys2Proof.Tests

open Sys2Proof Sys2Proof.Machine Sys2Proof.Slice0

/-! ## Small states -/

/-- A block with `BITMEM_CAP` 16 and `KEY_CAP` 8 after reset. -/
def small : State := State.resetWith ⟨16, 8, 0⟩

/-- `small` with bytes in KEYBUF from offset 0 and KEYLEN set. -/
def withKey (bytes : List Byte) (s : State) : State :=
  { s with keybuf := (List.range bytes.length).zip bytes, keyLen := BitVec.ofNat 32 bytes.length }

/-- The filter F1 of the spec's section 2.4, held. -/
def held : State :=
  { small with
    valid := true, entries := 2, hashRounds := 3, bitCount := 64, ldstat := .ok, ldCnt := 28
    bitmem := [(0, 0x00), (1, 0x30), (2, 0x00), (3, 0x00), (4, 0xc1), (5, 0x00), (6, 0x00), (7, 0x00)] }

/-- A load session that has accepted `n` header bytes, all 0. -/
def inHeader (n : Nat) : State :=
  { small with phase := .ldHeader, ldCnt := BitVec.ofNat 64 n, ldHdr := (List.range n).map fun k => (k, 0) }

/-- A load session for 9 bits, its header and one payload byte accepted (the example of R177). -/
def inPayload : State :=
  { small with phase := .ldPayload, hashRounds := 1, bitCount := 9, ldCnt := 21, bitmem := [(0, 0xff)] }

/-- An instance of `n` bits over two bytes, sealed. -/
def sealed (n : U64) (b0 b1 : Byte) : State :=
  { small with valid := true, hashRounds := 1, bitCount := n, bitmem := [(0, b0), (1, b1)] }

/-- What is read off the state an answer leads to. -/
def after {α : Type} (f : State → α) : Answer → Option α
  | .next t => some (f t)
  | _ => none

/-! ## Ill-formed terms are refused -/

theorem test_wellformed_refuses_words : cmdWordWellFormed 0x00000100 = false ∧ cmdWordWellFormed 0x80000014 = false ∧
    cmdWordWellFormed 0x00000000 = false ∧ cmdWordWellFormed 0x00000006 = false ∧
    cmdWordWellFormed 0x00000015 = false ∧ cmdWordWellFormed 0x00000014 = true := by decide

theorem test_wellformed_refuses_params : (⟨0, 8, 0⟩ : Params).wellFormed = false ∧
    (⟨2 ^ 61 + 1, 8, 0⟩ : Params).wellFormed = false ∧ (⟨16, 2 ^ 32, 0⟩ : Params).wellFormed = false ∧
    (⟨16, 8, 128⟩ : Params).wellFormed = false ∧ (⟨1, 0, 256⟩ : Params).wellFormed = true ∧
    (⟨2 ^ 61, 2 ^ 32 - 1, 0⟩ : Params).wellFormed = true := by decide

theorem test_wellformed_refuses_accesses : (⟨255, 8, none⟩ : BusAccess).inRegion 256 = false ∧
    (⟨512, 8, none⟩ : BusAccess).inRegion 256 = false ∧ (⟨260, 8, none⟩ : BusAccess).aligned 256 = false ∧
    (⟨264, 4, none⟩ : BusAccess).aligned 256 = false ∧ (⟨264, 8, none⟩ : BusAccess).aligned 256 = true ∧
    decodeAccess 256 ⟨264, 4, none⟩ = none := by decide

theorem test_every_command_wellformed : [Instr.load, .loadEnd, .loadAbort, .sealInstance, .release, .hash, .hashPair,
    .index, .bitTest, .contains].all Instr.wellFormed = true := by decide

/-! ## Words written out from R90 and R92 -/

theorem test_decode_load_family : decode 0b00000000000000000000000000000001#32 = some .load ∧
    decode 0b00000000000000000000000000000010#32 = some .loadEnd ∧
    decode 0b00000000000000000000000000000011#32 = some .loadAbort ∧
    decode 0b00000000000000000000000000000100#32 = some .sealInstance ∧
    decode 0b00000000000000000000000000000101#32 = some .release := by decide

theorem test_decode_hash_family : decode 0b00000000000000000000000000010000#32 = some .hash ∧
    decode 0b00000000000000000000000000010001#32 = some .hashPair := by decide

theorem test_decode_index_family : decode 0b00000000000000000000000000010010#32 = some .index ∧
    decode 0b00000000000000000000000000010011#32 = some .bitTest := by decide

theorem test_decode_membership_family : decode 0b00000000000000000000000000010100#32 = some .contains := by decide

/-- V-E2 to V-E4. -/
theorem test_decode_refuses : decode 0x00000000 = none ∧ decode 0x00000006 = none ∧ decode 0x0000000f = none ∧
    decode 0x00000015 = none ∧ decode 0x000000ff = none ∧ decode 0x00000114 = none ∧ decode 0x80000014 = none ∧
    decode 0x00010001 = none := by decide

theorem test_decodeTableWord : decodeTableWord 32 0x14 = some .contains ∧ decodeTableWord 32 0x114 = none ∧
    decodeTableWord 8 0x114 = some .contains ∧ decodeTableWord 64 0x14 = none := by decide

/-- R21: the first, a middle and the last register number, and the first that is not implemented. -/
theorem test_decode_registers : decodeReg 0 = some .cmd ∧ decodeReg 9 = some .hashOut ∧ decodeReg 18 = some .ldCnt ∧
    decodeReg 19 = none := by decide

/-! ## One step of each command, against the spec's vectors -/

/-- R171's example. -/
theorem test_load : after statusWord (exec .load small) = some 0x00000002 := by decide

/-- V-L25. -/
theorem test_load_held : after statusWord (exec .load held) = some 0x0000f701 := by decide

/-- R177's example. -/
theorem test_loadend : after (fun t => (statusWord t, t.ldCnt, t.bitCount)) (exec .loadEnd inPayload)
    = some (0x00004000, 21, 0) := by decide

/-- R176's example. -/
theorem test_loadabort : after (fun t => (statusWord t, t.ldCnt)) (exec .loadAbort (inHeader 3))
    = some (0x00001000, 3) := by decide

/-- V-L30. -/
theorem test_seal_alloc : after (fun t => (statusWord t, t.bitCount)) (exec .sealInstance { small with bitCount := 129 })
    = some (0x00000500, 129) := by decide

/-- V-L31. -/
theorem test_seal_fits : after statusWord (exec .sealInstance { small with bitCount := 128 }) = some 0x00000001 := by
  decide

/-- V-L28. -/
theorem test_release : after (fun t => (statusWord t, t.entries, t.hashRounds, t.bitCount, t.ldCnt)) (exec .release held)
    = some (0, 0, 0, 0, 0) := by decide

/-- V-L23. -/
theorem test_release_in_session : after statusWord (exec .release inPayload) = some 0x00000704 := by decide

/-- V-H1, V-H3 to V-H9, V-H12 to V-H15. -/
theorem test_hash_vectors : seededHash [] 42 = 0x10707292 ∧ seededHash [0x61] 42 = 0x44778fb8 ∧
    seededHash [0x61, 0x62] 42 = 0xe5d3bf4c ∧ seededHash [0x61, 0x62, 0x63] 42 = 0xda0d1400 ∧
    seededHash [0x61, 0x62, 0x63, 0x64] 42 = 0x7738deaf ∧
    seededHash [0x61, 0x62, 0x63, 0x64, 0x65, 0x66, 0x67, 0x68] 42 = 0x84444d4d ∧
    seededHash [0x68, 0x65, 0x6c, 0x6c, 0x6f] 42 = 0x7802f8cc ∧ seededHash [0x80] 0 = 0x9b891bb0 ∧
    seededHash [0xff, 0xfe, 0xfd] 0 = 0x3d614590 ∧ seededHash [0x00] 0 = 0xe94e6ebd ∧
    seededHash [0x00, 0x00, 0x00, 0x00] 0 = 0xb469b2cc := by decide +kernel

/-- V-H16: the seed -1 as a pattern. -/
theorem test_hash : after (fun t => (t.hashOut, t.err))
    (exec .hash { withKey [0x68, 0x65, 0x6c, 0x6c, 0x6f] small with seed := 0xffffffff })
    = some (0x93b3a51d, .ok) := by decide +kernel

/-- V-H10. -/
theorem test_hashpair : after (fun t => (t.h1, t.h2, t.err)) (exec .hashPair (withKey [0x77, 0x6f, 0x72, 0x6c, 0x64] small))
    = some (0x21f3de0d, 0x63be3cd3, .ok) := by decide +kernel

/-- V-H34. -/
theorem test_hashpair_range : after (fun t => (t.h1, t.h2, t.err)) (exec .hashPair { small with keyLen := 9, h1 := 1 })
    = some (1, 0, .range) := by decide

/-- V-I2. -/
theorem test_index : after (fun t => (t.combined, t.bitIndex, t.err))
    (exec .index { small with h1 := 0x7fffffff, h2 := 1, round := 1, bitCount := 1000 })
    = some (0x80000000, 648, .ok) := by decide +kernel

/-- V-I14. -/
theorem test_index_degen : after (fun t => (t.combined, t.bitIndex, t.err)) (exec .index { small with h1 := 1, bitIndex := 7 })
    = some (0, 7, .degen) := by decide

/-- V-B4, its first row. -/
theorem test_bittest : after (fun t => (t.result, t.err)) (exec .bitTest { sealed 9 0xff 0x01 with bitIndex := 8 })
    = some (true, .ok) := by decide +kernel

/-- V-B4, its second row. -/
theorem test_bittest_range : after (fun t => (t.result, t.err)) (exec .bitTest { sealed 9 0xff 0x01 with bitIndex := 9 })
    = some (false, .range) := by decide +kernel

/-- V-M6: round 0 passes, round 1 fails. -/
theorem test_contains : after (fun t => (statusWord t, t.h1, t.h2, t.round, t.combined, t.bitIndex))
    (exec .contains (withKey [0x61, 0x64] held))
    = some (0x0000f001, 0x7d048427, 0x3fb60ecf, 1, 0xbcba92f6, 10) := by decide +kernel

/-- V-M8: a false positive. -/
theorem test_contains_present : after (fun t => (statusWord t, t.round, t.combined, t.bitIndex))
    (exec .contains (withKey [0x62, 0x68, 0x77] held))
    = some (0x0000f009, 3, 0x84a657a0, 32) := by decide +kernel

/-! ## The register interface -/

/-- V-R2: the step from reset that runs a placed CONTAINS word. -/
theorem test_reset_contains : after statusWord (step (State.reset.withFetchWord 32 0x14)) = some 0x00000010 := by decide

/-- V-E2 and V-E5 as CMD writes. -/
theorem test_cmd : after statusWord (hostWrite 0 0 small) = some 0x00000600 ∧
    after statusWord (hostWrite 0 0x100000014 small) = some 0x00000010 := by decide

/-- V-E13. -/
theorem test_kdata : after (fun t => (t.kAddr, t.keybuf)) (hostWrite 7 0x55 { small with kAddr := 8 }) = some (8, []) ∧
    after (fun t => (t.kAddr, t.keybuf)) (hostWrite 7 0x55 { small with kAddr := 7 }) = some (8, [(7, 0x55)]) := by decide

/-- V-E12. -/
theorem test_narrow_write : after (fun t => readReg t .keyLen) (hostWrite 5 0x1ffffffff small) = some 0xffffffff := by
  decide

/-- V-L16: the last header byte of `bitCount` 2^64 - 1 where the payload is one byte too large. -/
theorem test_header_alloc : after (fun t => (statusWord t, t.bitCount, t.ldCnt)) (hostWrite 17 0xff
    { State.resetWith ⟨2 ^ 61 - 1, 8, 0⟩ with
      phase := .ldHeader, ldCnt := 19
      ldHdr := [(0, 0), (1, 0), (2, 0), (3, 0), (4, 0), (5, 0), (6, 0), (7, 0), (8, 0), (9, 0), (10, 0), (11, 1),
        (12, 0xff), (13, 0xff), (14, 0xff), (15, 0xff), (16, 0xff), (17, 0xff), (18, 0xff)] })
    = some (0x00005000, 0, 20) := by decide +kernel

/-- V-L14 without its header: the last payload byte, then a trailing one. -/
theorem test_payload_completes : after (fun t => (statusWord t, t.ldCnt, t.bitmem)) (hostWrite 17 0x01 inPayload)
    = some (0x0000f001, 22, [(0, 0xff), (1, 0x01)]) := by decide +kernel

/-- V-E9 to V-E11. -/
theorem test_reads : (hostRead 19 held).outbox = [0] ∧ (hostRead 0 held).outbox = [0] ∧
    (hostRead 1 held).outbox = [0x0000f001] ∧ (hostRead 2 held).outbox = [2] := by decide

/-! ## States and operands that meet the hypotheses of the statements -/

theorem held_inv : held.Inv := by
  constructor <;> (try unfold Memory.below) <;> decide

theorem inHeader_inv : (inHeader 19).Inv := by
  constructor <;> (try unfold Memory.below) <;> decide

theorem inPayload_inv : inPayload.Inv := by
  constructor <;> (try unfold Memory.below) <;> decide

theorem held_loaded : held.LoadedBytesWritten := by
  constructor <;> decide

theorem inPayload_loaded : inPayload.LoadedBytesWritten := by
  constructor <;> decide

/-- A state with one event to handle. -/
def facing (e : HostEvent) (s : State) : State := { s with inbox := [e] }

theorem witness_IllegalWordSetsOnlyErr : (facing (wr 0 0x100) small).inbox = wr 0 0x100 :: [] ∧
    ((0x100 : U64).setWidth 32).toNat / 256 ≠ 0 ∧
    ((0x15 : U64).setWidth 32).toNat % 256 ∉ [0x01, 0x02, 0x03, 0x04, 0x05, 0x10, 0x11, 0x12, 0x13, 0x14] ∧
    ((0 : U64).setWidth 32).toNat % 256 ∉ [0x01, 0x02, 0x03, 0x04, 0x05, 0x10, 0x11, 0x12, 0x13, 0x14] := by decide

theorem witness_StepRunsTheDecodedCommand : (facing (wr 0 0x14) small).inbox = wr 0 0x14 :: [] ∧
    decode ((0x14 : U64).setWidth 32) = some .contains ∧
    (0x100000014 : U64).setWidth 32 = (0x14 : U64).setWidth 32 ∧
    decode ((0x114 : U64).setWidth 32) = none := by decide

theorem witness_PlacedWordRuns : decodeTableWord 32 0x01 = some .load ∧ decodeTableWord 32 0x14 = some .contains := by
  decide

theorem witness_StepHandlesOneEvent : small.inbox = [] ∧ (facing (rd 1) small).inbox = rd 1 :: [] := by decide

theorem witness_ResetEventClearsTheBlock : (facing .reset held).inbox = .reset :: [] := by decide

theorem witness_LoadOpensASessionOnlyWhenOpen : (small.phase = .idle ∧ small.valid = false) ∧
    inPayload.phase ≠ .idle ∧ held.valid = true ∧ ∃ t, exec .load small = .next t :=
  ⟨by decide, by decide, by decide, _, rfl⟩

theorem witness_LoadEndEndsTheSession : (inHeader 0).phase = .ldHeader ∧ (inHeader 19).phase = .ldHeader ∧
    inPayload.phase = .ldPayload ∧ held.phase = .idle := by decide

theorem witness_LoadAbortFailsTheSession : (inHeader 0).phase ≠ .idle ∧ inPayload.phase ≠ .idle ∧ small.phase = .idle := by
  decide

theorem witness_SealMakesTheInstance : inPayload.phase ≠ .idle ∧ held.valid = true ∧
    (∃ s : State, s.phase = .idle ∧ s.valid = false ∧ s.params.bitmemCap = 16 ∧ ceil8 s.bitCount = 17) ∧
    (∃ s : State, s.phase = .idle ∧ s.valid = false ∧ s.params.bitmemCap = 16 ∧ ceil8 s.bitCount = 16) ∧
    (∃ s t : State, statusWord s = 0 ∧ s.bitCount = 8 ∧ 1 ≤ s.params.bitmemCap ∧ exec .sealInstance s = .next t) :=
  ⟨by decide, by decide, ⟨{ small with bitCount := 129 }, by decide⟩, ⟨{ small with bitCount := 128 }, by decide⟩,
    { small with bitCount := 8 }, _, by decide, by decide, by decide, rfl⟩

theorem witness_ReleaseClearsTheInstance : inPayload.phase ≠ .idle ∧ held.phase = .idle ∧
    ∃ t, exec .release held = .next t := ⟨by decide, by decide, _, rfl⟩

theorem witness_StreamIsDiscardedWhenIdle : (facing (wr 17 0xaa) held).phase = .idle ∧
    (facing (wr 17 0xaa) held).inbox = wr 17 0xaa :: [] := by decide

theorem witness_HeaderBytesMakeTheHeader : ((inHeader 0).phase = .ldHeader ∧ (inHeader 0).ldCnt.toNat < 19) ∧
    ((inHeader 18).phase = .ldHeader ∧ (inHeader 18).ldCnt.toNat < 19) ∧
    ((inHeader 19).phase = .ldHeader ∧ (inHeader 19).ldCnt.toNat = 19) := by decide

theorem witness_PayloadBytesFillBitmem : inPayload.phase = .ldPayload ∧ 20 ≤ inPayload.ldCnt.toNat ∧
    ceil8 inPayload.bitCount ≤ inPayload.params.bitmemCap ∧ inPayload.ldCnt.toNat + 1 = 20 + ceil8 inPayload.bitCount ∧
    ∃ s : State, s.phase = .ldPayload ∧ s.ldCnt.toNat = 20 ∧ ceil8 s.bitCount ≤ s.params.bitmemCap ∧
      s.ldCnt.toNat + 1 < 20 + ceil8 s.bitCount :=
  ⟨by decide, by decide, by decide, by decide, { inPayload with ldCnt := 20 }, by decide⟩

theorem witness_LoadedFileBecomesTheInstance : small.params.wellFormed = true ∧ small.isOpen = true ∧ (128 : U64) ≠ 0 ∧
    ceil8 128 ≤ small.params.bitmemCap ∧ (List.replicate 16 (0xff : Byte)).length = ceil8 128 := by decide

theorem witness_TruncatedFileFailsToLoad : small.params.wellFormed = true ∧ small.isOpen = true ∧ (9 : U64) ≠ 0 ∧
    ceil8 9 ≤ small.params.bitmemCap ∧ ([0xff, 0x01] : List Byte).length = ceil8 9 ∧
    0 < 20 + ([0xff, 0x01] : List Byte).length ∧ 19 < 20 + ([0xff, 0x01] : List Byte).length ∧
    20 < 20 + ([0xff, 0x01] : List Byte).length ∧ 21 < 20 + ([0xff, 0x01] : List Byte).length := by decide

theorem witness_HashWritesHashout : small.keyLen.toNat ≤ small.params.keyCap ∧ small.keyLen = 0 ∧
    ({ small with keyLen := 8 } : State).keyLen.toNat ≤ small.params.keyCap ∧
    small.params.keyCap < ({ small with keyLen := 9 } : State).keyLen.toNat := by decide

theorem witness_HashpairWritesBothBaseHashes :
    ({ small with keyLen := 8 } : State).keyLen.toNat ≤ small.params.keyCap ∧
    small.params.keyCap < ({ small with keyLen := 9 } : State).keyLen.toNat := by decide

theorem witness_WrittenBytesAreTheKey : small.params.wellFormed = true ∧
    (List.replicate 8 (0x61 : Byte)).length ≤ small.params.keyCap := by decide

theorem witness_CombineWrapsAndAbsWidens : (0x7fffffff : U32).toNat < 0x80000000 ∧
    0x80000000 ≤ (0x80000000 : U32).toNat := by decide

theorem witness_BitIndexIsReducedAndBounded : (1 : U64) ≠ 0 := by decide

theorem witness_DerivationCornerCases : 2 ^ 31 < (0x80000001 : U64).toNat := by decide

theorem witness_IndexWritesCombinedAndBitindex : small.bitCount = 0 ∧ held.bitCount ≠ 0 := by decide

theorem witness_BitTestReadsLeastSignificantFirst : (127 : U64).toNat / 8 < small.params.bitmemCap := by decide

theorem witness_BittestWritesResult : small.valid = false ∧
    (held.valid = true ∧ held.bitCount.toNat ≤ ({ held with bitIndex := 64 } : State).bitIndex.toNat) ∧
    (({ held with bitIndex := 63 } : State).bitIndex.toNat < held.bitCount.toNat ∧
      ceil8 held.bitCount ≤ held.params.bitmemCap) ∧
    ((sealed 8 0x01 0x00).valid = true ∧ (sealed 8 0x01 0x00).bitCount = 8 ∧
      1 ≤ (sealed 8 0x01 0x00).params.bitmemCap ∧ bitmemByte (sealed 8 0x01 0x00) 0 = 0x01 ∧
      (sealed 8 0x01 0x00).bitIndex.toNat < 8) := by decide

theorem witness_DegenerateContainsAnswersAbsent : small.valid = false ∧ (sealed 0 0 0).bitCount = 0 ∧
    ({ held with hashRounds := 0 } : State).hashRounds = 0 := by decide

theorem witness_OversizedKeyEndsContains : ∃ s : State, s.valid = true ∧ s.bitCount ≠ 0 ∧ s.hashRounds ≠ 0 ∧
    s.params.keyCap < s.keyLen.toNat := ⟨{ held with keyLen := 9 }, by decide⟩

theorem witness_ContainsRunsTheRounds : ∃ s : State, s.valid = true ∧ s.bitCount ≠ 0 ∧ s.hashRounds ≠ 0 ∧
    s.keyLen.toNat ≤ s.params.keyCap ∧ ceil8 s.bitCount ≤ s.params.bitmemCap :=
  ⟨withKey [0x61, 0x64] held, by decide⟩

theorem witness_ContainsMatchesThePrimitives : ∃ s : State, s.valid = true ∧ s.bitCount ≠ 0 ∧ s.hashRounds ≠ 0 ∧
    s.keyLen.toNat ≤ s.params.keyCap ∧ ceil8 s.bitCount ≤ s.params.bitmemCap :=
  ⟨withKey [0x68, 0x65, 0x6c, 0x6c, 0x6f] held, by decide⟩

/-- Two states that differ in what CONTAINS does not read, and differ in the answer's trace beforehand. -/
theorem witness_ContainsDependsOnItsInputsOnly : ∃ s s' t : State, s ≠ s' ∧ s.params = s'.params ∧ s.valid = s'.valid ∧
    s.hashRounds = s'.hashRounds ∧ s.bitCount = s'.bitCount ∧ s.keyLen = s'.keyLen ∧
    (∀ k, keybufByte s k = keybufByte s' k) ∧ (∀ k, bitmemByte s k = bitmemByte s' k) ∧
    s.isDegenerate = false ∧ exec .contains s = .next t ∧ t.err = .ok := by
  have h : ∃ t, exec .contains (withKey [0x61, 0x64] held) = .next t ∧ t.err = .ok := by
    have hd : after (fun t => t.err) (exec .contains (withKey [0x61, 0x64] held)) = some .ok := by decide +kernel
    cases he : exec .contains (withKey [0x61, 0x64] held) with
    | next t =>
      rw [he] at hd
      exact ⟨t, rfl, Option.some.inj hd⟩
    | fault f => rw [he] at hd; cases hd
    | refused r => rw [he] at hd; cases hd
  obtain ⟨t, ht, he⟩ := h
  exact ⟨withKey [0x61, 0x64] held, { withKey [0x61, 0x64] held with seed := 1, result := true, h1 := 5 }, t, by decide,
    rfl, rfl, rfl, rfl, rfl, fun _ => rfl, fun _ => rfl, by decide, ht, he⟩

theorem witness_QueriesAreReadOnly : Instr.bitTest ∈ [Instr.hash, .hashPair, .index, .bitTest, .contains] ∧
    ∃ t, exec .bitTest held = .next t := ⟨by decide, _, rfl⟩

theorem witness_CommandsWriteOnlyTheirRow : (∃ t, exec .release held = .next t) ∧ dropsBitmem .load = false ∧
    (∃ t, exec .load small = .next t) ∧ Reg.seed ≠ .status ∧ Reg.seed ∉ writtenRegs .release :=
  ⟨⟨_, rfl⟩, by decide, ⟨_, rfl⟩, by decide, by decide⟩

theorem witness_ErrorsArePrecise : (∃ t, exec .load held = .next t ∧ t.err ≠ .ok) ∧
    (∃ t, hostWrite 0 0 held = .next t ∧ t.err ≠ .ok) := ⟨⟨_, rfl, by decide⟩, ⟨_, rfl, by decide⟩⟩

theorem witness_ErrTable : (∃ t, exec .load held = .next t) ∧ (∃ t, exec .sealInstance small = .next t) :=
  ⟨⟨_, rfl⟩, ⟨_, rfl⟩⟩

theorem witness_ErrIsWrittenByCmdOnly : ∃ s t : State, s.inbox = wr 5 1 :: [] ∧ wr 5 1 ≠ .reset ∧
    writesTo s.params.regBase .cmd (wr 5 1) = false ∧ step s = .next t :=
  ⟨facing (wr 5 1) small, _, by decide, by decide, by decide, rfl⟩

theorem witness_ResultIsWrittenByTestsOnly : (∃ s t : State, s.inbox = wr 0 1 :: [] ∧ wr 0 1 ≠ .reset ∧
    commandOf s.params.regBase (wr 0 1) ≠ some .bitTest ∧ commandOf s.params.regBase (wr 0 1) ≠ some .contains ∧
    step s = .next t) ∧ (∃ t, exec .bitTest small = .next t ∧ t.err ≠ .ok) :=
  ⟨⟨facing (wr 0 1) small, _, by decide, by decide, by decide, by decide, rfl⟩, _, rfl, by decide⟩

/-- One state and event for each transition of R45. -/
theorem witness_PhaseTransitions :
    (after (fun t => t.phase) (step (facing (wr 0 1) small)) = some .ldHeader) ∧
    (after (fun t => t.phase) (step (facing (wr 17 1) (inHeader 19))) = some .ldPayload) ∧
    (after (fun t => t.phase) (step (facing (wr 17 0) (inHeader 19))) = some .idle) ∧
    (after (fun t => t.phase) (step (facing (wr 17 0) inPayload)) = some .idle) ∧
    (after (fun t => t.phase) (step (facing .reset inPayload)) = some .idle) := by decide +kernel

theorem witness_HeldInstanceIsImmutable : ∃ s t : State, s.Inv ∧ s.valid = true ∧ s.inbox = wr 4 99 :: [] ∧
    wr 4 99 ≠ .reset ∧ commandOf s.params.regBase (wr 4 99) ≠ some .release ∧ step s = .next t :=
  ⟨facing (wr 4 99) held, _, by constructor <;> (try unfold Memory.below) <;> decide, by decide, by decide, by decide,
    by decide, rfl⟩

theorem witness_InstanceComesFromSealOrLoad :
    (∃ s t : State, s.inbox = wr 0 4 :: [] ∧ s.valid = false ∧ step s = .next t ∧ t.valid = true) ∧
    (after (fun t => t.valid) (step (facing (wr 17 0) inPayload)) = some true ∧ inPayload.valid = false) :=
  ⟨⟨facing (wr 0 4) { small with bitCount := 8 }, _, by decide, by decide, rfl, by decide⟩, by decide +kernel⟩

theorem witness_KeybufIsWrittenByKdataOnly : ∃ s t : State, s.inbox = wr 5 1 :: [] ∧ wr 5 1 ≠ .reset ∧
    writesTo s.params.regBase .kData (wr 5 1) = false ∧ step s = .next t :=
  ⟨facing (wr 5 1) small, _, by decide, by decide, by decide, rfl⟩

theorem witness_ParametersNeverChange : ∃ t, step (facing .reset held) = .next t := ⟨_, rfl⟩

theorem witness_PlainWritesStoreTheLowBits : plainWidth .keyLen = some 32 ∧ plainWidth .bmAddr = some 64 ∧
    (openWidth .hashRounds = some 32 ∧ small.isOpen = true) ∧ openWidth .bitCount = some 64 := by decide

theorem witness_IgnoredWritesChangeNothing : decodeReg 1 = some .status ∧
    (decodeReg 4 = some .bitCount ∧ held.isOpen = false) ∧
    (decodeReg 7 = some .kData ∧ small.params.keyCap ≤ ({ small with kAddr := 8 } : State).kAddr.toNat) ∧
    (decodeReg 16 = some .bmData ∧ small.params.bitmemCap ≤ ({ small with bmAddr := 16 } : State).bmAddr.toNat) ∧
    (decodeReg 17 = some .stream ∧ small.phase = .idle) ∧ 19 ≤ 19 := by decide

theorem witness_ReadsHaveNoSideEffect : (∀ n, (facing (rd n) held).inbox = rd n :: []) ∧
    (∀ k : Fin 19, (decodeReg k.1).map encodeReg = some k.1) := ⟨fun _ => rfl, by decide⟩

theorem witness_KdataWritesTheKeyBuffer : small.params.keyCap ≤ 2 ^ 32 - 1 ∧
    ({ small with kAddr := 7 } : State).kAddr.toNat < small.params.keyCap ∧
    small.params.keyCap ≤ ({ small with kAddr := 8 } : State).kAddr.toNat := by decide

theorem witness_BmdataWritesBitmemWhenOpen : (small.params.bitmemCap ≤ 2 ^ 61 ∧ small.phase = .idle ∧
    small.valid = false ∧ ({ small with bmAddr := 15 } : State).bmAddr.toNat < small.params.bitmemCap) ∧
    inPayload.phase ≠ .idle ∧ held.valid = true ∧
    small.params.bitmemCap ≤ ({ small with bmAddr := 16 } : State).bmAddr.toNat := by decide

theorem witness_BusAccessesReachTheirRegister : 31 < 32 ∧
    (small.params.regBase ≤ 4 ∧ 4 < small.params.regBase + 256 ∧ (4 - small.params.regBase) % 8 ≠ 0) ∧
    small.params.regBase + 256 ≤ 256 ∧ (State.resetWith ⟨16, 8, 256⟩).params.regBase = 256 ∧ 255 < 256 := by decide

theorem witness_StoredByteIsReadBack : Memory.wf held.bitmem := held_inv.bitmem_wf

theorem witness_ResetMeetsTheInvariant : (⟨16, 8, 0⟩ : Params).wellFormed = true := by decide

theorem witness_StepKeepsTheInvariant : (inHeader 19).Inv ∧ inPayload.Inv ∧ ∃ t, step held = .next t :=
  ⟨inHeader_inv, inPayload_inv, _, rfl⟩

theorem witness_StepKeepsLoadedBytesWritten : inPayload.Inv ∧ inPayload.LoadedBytesWritten ∧ held.Inv ∧
    held.LoadedBytesWritten ∧ ∃ t, step held = .next t :=
  ⟨inPayload_inv, inPayload_loaded, held_inv, held_loaded, _, rfl⟩

theorem witness_TransactionsCompleteWithoutFault : (facing (wr 0 0x14) held).Inv ∧ (facing (wr 0 0x14) held).inbox
    = .transaction (.write 0 0x14) :: [] :=
  ⟨by constructor <;> (try unfold Memory.below) <;> decide, rfl⟩

theorem witness_AbsentBytesFault :
    (∃ s : State, s.valid = true ∧ s.bitIndex.toNat < s.bitCount.toNat ∧ s.params.bitmemCap = s.bitIndex.toNat / 8) ∧
    (∃ s : State, s.valid = true ∧ s.bitCount ≠ 0 ∧ s.hashRounds ≠ 0 ∧ s.keyLen.toNat ≤ s.params.keyCap ∧
      s.params.bitmemCap ≤ roundIndex s 0 / 8) ∧
    (∃ s : State, s.phase = .ldHeader ∧ 20 ≤ s.ldCnt.toNat) ∧
    (∃ s : State, s.phase = .ldPayload ∧ s.ldCnt.toNat < 20) ∧
    (∃ s : State, s.phase = .ldPayload ∧ s.params.bitmemCap ≤ s.ldCnt.toNat - 20) :=
  ⟨⟨{ sealed 200 0 0 with bitIndex := 128 }, by decide⟩, ⟨sealed 0x100000000 0 0, by decide +kernel⟩,
    ⟨{ small with phase := .ldHeader, ldCnt := 20 }, by decide⟩, ⟨{ small with phase := .ldPayload, ldCnt := 19 }, by decide⟩,
    ⟨{ small with phase := .ldPayload, ldCnt := 36 }, by decide⟩⟩

end Sys2Proof.Tests
end

section
/-! The scope family: the exact ceiling of R12, the packing sums of R13, memories read back as written (R11, R61, R62),
and the parameters every step keeps (R7). -/

namespace Sys2Proof.Machine

/-! ## The ceiling (R12) -/

/-- The ceiling as one division: the form in which its bounds are linear arithmetic. -/
theorem ceil8_eq_div (n : U64) : ceil8 n = (n.toNat + 7) / 8 := by
  unfold ceil8
  split_ifs <;> omega

theorem ceil8_eq_zero_iff (n : U64) : ceil8 n = 0 ↔ n = 0 := by
  constructor
  · intro h
    by_contra hn
    exact (ceil8_pos n hn).ne' h
  · rintro rfl
    exact ceil8_zero

/-- Settles O18: the two bounds that make `ceil8 n` the least, from its form as one division. -/
theorem ceilingIsExact : Obligations.CeilingIsExact := by
  intro n
  have hdiv := ceil8_eq_div n
  exact ⟨by omega, by omega, ceil8_le n, ceil8_eq_zero_iff n⟩

/-! ## The packing functions (R13): the sums of bytes do not reach the modulus -/

theorem toNat_be64 (b0 b1 b2 b3 b4 b5 b6 b7 : Byte) : (be64 b0 b1 b2 b3 b4 b5 b6 b7).toNat =
    b0.toNat * 2 ^ 56 + b1.toNat * 2 ^ 48 + b2.toNat * 2 ^ 40 + b3.toNat * 2 ^ 32 + b4.toNat * 2 ^ 24 +
    b5.toNat * 2 ^ 16 + b6.toNat * 2 ^ 8 + b7.toNat := by
  rw [be64, BitVec.toNat_ofNat]
  exact Nat.mod_eq_of_lt (by omega)

theorem toNat_be32 (b0 b1 b2 b3 : Byte) : (be32 b0 b1 b2 b3).toNat =
    b0.toNat * 2 ^ 24 + b1.toNat * 2 ^ 16 + b2.toNat * 2 ^ 8 + b3.toNat := by
  rw [be32, BitVec.toNat_ofNat]
  exact Nat.mod_eq_of_lt (by omega)

theorem toNat_le32 (b0 b1 b2 b3 : Byte) : (le32 b0 b1 b2 b3).toNat =
    b0.toNat + b1.toNat * 2 ^ 8 + b2.toNat * 2 ^ 16 + b3.toNat * 2 ^ 24 := by
  rw [le32, BitVec.toNat_ofNat]
  exact Nat.mod_eq_of_lt (by omega)

/-- Settles O17. -/
theorem packingFunctionsAddUp : Obligations.PackingFunctionsAddUp :=
  ⟨toNat_be64, toNat_be32, toNat_le32⟩

/-! ## Memories (R11, R61, R62) -/

/-- What a memory lists after a store, at the stored offset and at every other one. -/
theorem Memory.lookup_store (m : Memory) (j k : Nat) (v : Byte) :
    Memory.lookup (Memory.store m j v) k = if k = j then some v else Memory.lookup m k := by
  split_ifs with h
  · subst h
    exact Memory.lookup_store_same m k v
  · exact Memory.lookup_store_other m j k v h

/-- Settles O54. -/
theorem storedByteIsReadBack : Obligations.StoredByteIsReadBack :=
  fun m a k v hm => ⟨Memory.lookup_store m a k v, Memory.wf_of_store m a v hm⟩

/-! ## The parameters (R7) -/

@[simp] theorem hostRead_params (n : Nat) (s : State) : (hostRead n s).params = s.params := rfl

/-- No effect of a STREAM byte reaches the parameters. -/
theorem streamByte_keeps_params (d : Byte) (s t : State) (h : streamByte d s = .next t) : t.params = s.params := by
  cases streamByte_effect d s t h with
  | discarded _ ht => rw [ht]
  | header _ _ ht => simp [ht]
  | badHeader _ _ _ _ _ _ _ ht => simp [ht]
  | goodHeader _ _ _ _ _ _ _ ht => simp [ht]
  | payload _ _ _ _ ht => simp [ht]
  | complete _ _ _ _ ht => simp [ht]

/-- No effect of an event reaches the parameters. -/
theorem eventEffect_keeps_params {base : Nat} {e : HostEvent} {s t : State} (h : EventEffect base e s t) :
    t.params = s.params := by
  cases h with
  | reset _ ht => simp [ht]
  | read n _ ht => simp [ht]
  | ignored _ _ _ _ ht => rw [ht]
  | illegal _ _ _ ht => simp [ht]
  | command i _ _ ht =>
    obtain ⟨hparams, _⟩ := exec_keeps i s t ht
    exact hparams
  | stream d _ ht => exact streamByte_keeps_params d s t ht
  | write r v _ h1 h2 ht =>
    obtain ⟨hparams, _⟩ := writeReg_keeps r v s t h1 h2 ht
    exact hparams

/-- Settles O47, by the effects of the one event a step handles; an idle step holds the state. -/
theorem parametersNeverChange : Obligations.ParametersNeverChange := by
  intro s t h
  rcases step_next s t h with ⟨_, rfl⟩ | ⟨e, rest, hs, _⟩
  · rfl
  · have hkeep := eventEffect_keeps_params (step_event s t e rest hs h)
    exact hkeep

end Sys2Proof.Machine
end

section
/-! The state family: what the registers, the instance, the load session and the memories keep (R30 to R51). -/

namespace Sys2Proof.Machine

/-! ## What a step can do to the load side of the state, said once -/

/-- Two states agree on the parameters, the instance, the load session and the three memories. -/
structure SameLoadSide (s t : State) : Prop where
  params : t.params = s.params
  valid : t.valid = s.valid
  phase : t.phase = s.phase
  ldstat : t.ldstat = s.ldstat
  entries : t.entries = s.entries
  hashRounds : t.hashRounds = s.hashRounds
  bitCount : t.bitCount = s.bitCount
  ldCnt : t.ldCnt = s.ldCnt
  bitmem : t.bitmem = s.bitmem
  bitmemEpoch : t.bitmemEpoch = s.bitmemEpoch
  keybuf : t.keybuf = s.keybuf
  ldHdr : t.ldHdr = s.ldHdr

theorem sameLoadSide_withErr (e : Err) (s : State) : SameLoadSide s (s.withErr e) := by
  constructor <;> rfl

theorem sameLoadSide_hostRead (n : Nat) (s : State) : SameLoadSide s (hostRead n s) := by
  constructor <;> rfl

/-- Taking an event from the inbox does not reach the load side. -/
theorem sameLoadSide_inbox (s : State) (rest : List HostEvent) : SameLoadSide s { s with inbox := rest } := by
  constructor <;> rfl

/-- What a command can do to the load side (R171, R176 to R181): nothing, as the five queries and every refused command
do, or what its own rule says. -/
inductive CommandEffect (i : Instr) (s t : State) : Prop where
  | same (h : SameLoadSide s t)
  | opened (hi : i = .load) (ho : s.isOpen = true)
      (ht : t = ({ s.withHeader 0 0 0 with ldCnt := 0, ldstat := .none, phase := .ldHeader }).withErr .ok)
  | failed (hi : i = .loadEnd ∨ i = .loadAbort) (hp : s.phase ≠ .idle) (code : LdStat)
      (hcode : code ∈ [LdStat.io, .hdrShort, .payloadShort]) (ht : t = (loadFail code s).withErr .ok)
  | sealed (hi : i = .sealInstance) (ho : s.isOpen = true) (hfit : ceil8 s.bitCount ≤ s.params.bitmemCap)
      (ht : t = ({ s with valid := true, ldstat := .none }).withErr .ok)
  | released (hi : i = .release) (hp : s.phase = .idle)
      (ht : t = ({ (s.withHeader 0 0 0).dropBitmem with valid := false, ldCnt := 0, ldstat := .none }).withErr .ok)

/-- A command that answers a next state has one of the effects of `CommandEffect`. -/
theorem exec_effect (i : Instr) (s t : State) (h : exec i s = .next t) : CommandEffect i s t := by
  cases i with
  | load =>
    rcases execLoad_cases s t h with ⟨ho, ht⟩ | ⟨_, rfl⟩
    · exact .opened rfl ho ht
    · exact .same (sameLoadSide_withErr _ s)
  | loadEnd =>
    rcases execLoadEnd_cases s t h with ⟨hp, ht⟩ | ⟨hp, ht⟩ | ⟨_, rfl⟩
    · exact .failed (.inl rfl) (by simp [hp]) .hdrShort (by decide) ht
    · exact .failed (.inl rfl) (by simp [hp]) .payloadShort (by decide) ht
    · exact .same (sameLoadSide_withErr _ s)
  | loadAbort =>
    rcases execLoadAbort_cases s t h with ⟨hp, ht⟩ | ⟨_, rfl⟩
    · exact .failed (.inr rfl) hp .io (by decide) ht
    · exact .same (sameLoadSide_withErr _ s)
  | sealInstance =>
    rcases execSeal_cases s t h with ⟨ho, hfit, ht⟩ | ⟨_, _, rfl⟩ | ⟨_, rfl⟩
    · exact .sealed rfl ho hfit ht
    · exact .same (sameLoadSide_withErr _ s)
    · exact .same (sameLoadSide_withErr _ s)
  | release =>
    rcases execRelease_cases s t h with ⟨_, rfl⟩ | ⟨hp, ht⟩
    · exact .same (sameLoadSide_withErr _ s)
    · exact .released rfl hp ht
  | hash => rcases execHash_cases s t h with ⟨_, rfl⟩ | ⟨_, rfl⟩ <;> exact .same (by constructor <;> rfl)
  | hashPair => rcases execHashPair_cases s t h with ⟨_, rfl⟩ | ⟨_, rfl⟩ <;> exact .same (by constructor <;> rfl)
  | index => rcases execIndex_cases s t h with ⟨_, rfl⟩ | ⟨_, rfl⟩ <;> exact .same (by constructor <;> rfl)
  | bitTest =>
    rcases execBitTest_cases s t h with ⟨_, rfl⟩ | ⟨_, _, rfl⟩ | ⟨_, _, r, _, rfl⟩ <;>
      exact .same (by constructor <;> rfl)
  | contains =>
    rcases execContains_cases s t h with ⟨_, rfl⟩ | ⟨_, _, rfl⟩ | ⟨_, _, ⟨_, _, _, _, _, _, _, rfl⟩⟩ <;>
      exact .same (by constructor <;> rfl)

/-- What a write to a register other than CMD and STREAM can do to the load side (R43, R48, R179): nothing, new instance
registers when Open, or one byte through the key window or the bit-memory window. -/
inductive WriteEffect (s t : State) : Prop where
  | same (h : SameLoadSide s t)
  | instanceRegister (ho : s.isOpen = true) (e : U64) (h : U32) (n : U64) (ht : t = s.withHeader e h n)
  | keyWindow (d : Byte) (hk : s.kAddr.toNat < s.params.keyCap)
      (ht : t = { s with keybuf := Memory.store s.keybuf s.kAddr.toNat d, kAddr := s.kAddr + 1 })
  | bitmemWindow (d : Byte) (ho : s.isOpen = true) (hb : s.bmAddr.toNat < s.params.bitmemCap)
      (ht : t = { s with bitmem := Memory.store s.bitmem s.bmAddr.toNat d, bmAddr := s.bmAddr + 1 })

/-- A write to an instance register: taken when Open, ignored otherwise (R179). -/
theorem writeEffect_of_ite {s t : State} (e : U64) (h : U32) (n : U64)
    (ht : (if s.isOpen = true then s.withHeader e h n else s) = t) : WriteEffect s t := by
  split_ifs at ht with ho
  · exact .instanceRegister ho e h n ht.symm
  · exact .same (by subst ht; constructor <;> rfl)

/-- A write to a register other than CMD and STREAM has one of the effects of `WriteEffect`. -/
theorem writeReg_effect (r : Reg) (v : U64) (s t : State) (h1 : r ≠ .cmd) (h2 : r ≠ .stream)
    (h : writeReg r v s = .next t) : WriteEffect s t := by
  cases r <;> simp only [writeReg, Host.Outcome.next.injEq, ne_eq, not_true_eq_false] at h h1 h2
  case entries => exact writeEffect_of_ite v s.hashRounds s.bitCount h
  case hashRounds => exact writeEffect_of_ite s.entries (v.setWidth 32) s.bitCount h
  case bitCount => exact writeEffect_of_ite s.entries s.hashRounds v h
  case kData =>
    rcases pushKeyByte_cases (v.setWidth 8) s with ⟨hk, he⟩ | ⟨_, he⟩
    · exact .keyWindow _ hk (h.symm.trans he)
    · exact .same (by rw [← h, he]; constructor <;> rfl)
  case bmData =>
    rcases pushBitmemByte_cases (v.setWidth 8) s with ⟨ho, hb, he⟩ | ⟨_, he⟩
    · exact .bitmemWindow _ ho hb (h.symm.trans he)
    · exact .same (by rw [← h, he]; constructor <;> rfl)
  all_goals exact .same (by subst h; constructor <;> rfl)

/-- What a step that handles an event can do to the load side: nothing, reset, or what a command, a STREAM byte or a
write to another register can do. `s` is the state with the event taken from the inbox. -/
inductive LoadSideEffect (base : Nat) (e : HostEvent) (s t : State) : Prop where
  | same (h : SameLoadSide s t)
  | reset (he : e = .reset) (ht : t = applyReset s)
  | command (i : Instr) (hc : commandOf base e = some i) (h : CommandEffect i s t)
  | stream (d : Byte) (hw : writesTo base .stream e = true) (h : StreamEffect d s t)
  | write (h : WriteEffect s t)

/-- A step that answers a next state and handles an event has one of the effects of `LoadSideEffect`. -/
theorem step_loadSide {s t : State} {e : HostEvent} {rest : List HostEvent} (hs : s.inbox = e :: rest)
    (h : step s = .next t) : LoadSideEffect s.params.regBase e { s with inbox := rest } t := by
  cases step_event s t e rest hs h with
  | reset he ht => exact .reset he ht
  | read n _ ht => exact .same (ht ▸ sameLoadSide_hostRead n _)
  | ignored _ _ _ _ ht => exact .same (by subst ht; constructor <;> rfl)
  | illegal _ _ _ ht => exact .same (ht ▸ sameLoadSide_withErr _ _)
  | command i hc _ ht => exact .command i hc (exec_effect i _ t ht)
  | stream d hw ht => exact .stream d hw (streamByte_effect d _ t ht)
  | write r v _ h1 h2 ht => exact .write (writeReg_effect r v _ t h1 h2 ht)


/-! ## Instance, phase and load state (R34, R35, R45, R170) -/

/-- No command but RELEASE reaches a held instance: outside a session every other one leaves the load side alone. -/
theorem CommandEffect.same_of_held {i : Instr} {s t : State} (h : CommandEffect i s t) (hv : s.valid = true)
    (hp : s.phase = .idle) (hi : i ≠ .release) : SameLoadSide s t := by
  cases h with
  | same h => exact h
  | opened _ ho _ => simp [hv] at ho
  | failed _ hn _ _ _ => exact absurd hp hn
  | sealed _ ho _ _ => simp [hv] at ho
  | released hr _ _ => exact absurd hr hi

/-- `t` holds the instance of `s`, every register and every byte of it as it was. -/
def KeepsHeldInstance (s t : State) : Prop :=
  t.valid = true ∧ t.entries = s.entries ∧ t.hashRounds = s.hashRounds ∧ t.bitCount = s.bitCount ∧
    ∀ k, bitmemByte t k = bitmemByte s k

theorem SameLoadSide.keeps_held {s t : State} (h : SameLoadSide s t) (hv : s.valid = true) : KeepsHeldInstance s t :=
  ⟨h.valid.trans hv, h.entries, h.hashRounds, h.bitCount, bitmemByte_congr h.bitmem h.bitmemEpoch⟩

/-- No write reaches the registers or the bytes of a held instance. -/
theorem WriteEffect.keeps_held {s t : State} (h : WriteEffect s t) (hv : s.valid = true) :
    KeepsHeldInstance s t := by
  cases h with
  | same h => exact h.keeps_held hv
  | instanceRegister ho _ _ _ _ => simp [hv] at ho
  | keyWindow _ _ ht => subst ht; exact ⟨hv, rfl, rfl, rfl, bitmemByte_congr rfl rfl⟩
  | bitmemWindow _ ho _ _ => simp [hv] at ho

/-- A STREAM byte outside a session is discarded (R182). -/
theorem StreamEffect.eq_of_idle {d : Byte} {s t : State} (h : StreamEffect d s t) (hp : s.phase = .idle) : t = s := by
  cases h with
  | discarded _ ht => exact ht
  | header hq | badHeader hq | goodHeader hq | payload hq | complete hq => simp [hp] at hq

/-- Settles O44: a held instance stands outside a session (R50 item 1), so LOAD, SEAL and the writes of the instance are
refused or ignored, and a STREAM byte is discarded. -/
theorem heldInstanceIsImmutable : Obligations.HeldInstanceIsImmutable := by
  intro s t e rest hinv hv hs hr hrel h
  have hp : s.phase = .idle := (hinv.instance_fits hv).1
  cases step_loadSide hs h with
  | same h => exact h.keeps_held hv
  | reset he _ => exact absurd he hr
  | command i hc h =>
    have hi : i ≠ .release := fun hi => hrel (hi ▸ hc)
    exact (h.same_of_held hv hp hi).keeps_held hv
  | stream d _ h =>
    rw [h.eq_of_idle hp]
    exact ⟨hv, rfl, rfl, rfl, bitmemByte_congr rfl rfl⟩
  | write h => exact h.keeps_held hv

/-- Settles O45: of the effects on the load side, only an accepted SEAL and a completing payload byte set VALID. -/
theorem instanceComesFromSealOrLoad : Obligations.InstanceComesFromSealOrLoad := by
  intro s t e rest hs hv h ht
  have hsame : t.valid ≠ s.valid := by simp [hv, ht]
  cases step_loadSide hs h with
  | same h => exact absurd h.valid hsame
  | reset _ hr => simp [hr] at ht
  | command i hc h =>
    cases h with
    | same h => exact absurd h.valid hsame
    | opened _ _ hr | failed _ _ _ _ hr => exact absurd (congrArg State.valid hr) hsame
    | sealed hi ho _ hr => exact .inl ⟨hi ▸ hc, ho, by simp [hr]⟩
    | released _ _ hr => simp [hr] at ht
  | stream d hw h =>
    cases h with
    | complete hp _ _ _ hr => exact .inr ⟨hw, hp, by simp [hr]⟩
    | discarded _ hr | header _ _ hr | badHeader _ _ _ _ _ _ _ hr | goodHeader _ _ _ _ _ _ _ hr | payload _ _ _ _ hr =>
      exact absurd (congrArg State.valid hr) hsame
  | write h =>
    cases h with
    | same h => exact absurd h.valid hsame
    | instanceRegister _ _ _ _ hr | keyWindow _ _ hr | bitmemWindow _ _ _ hr =>
      exact absurd (congrArg State.valid hr) hsame

/-- No write to a register other than CMD and STREAM changes the load phase. -/
theorem WriteEffect.keeps_phase {s t : State} (h : WriteEffect s t) : t.phase = s.phase := by
  cases h with
  | same h => exact h.phase
  | instanceRegister _ _ _ _ ht | keyWindow _ _ ht | bitmemWindow _ _ _ ht => subst ht; rfl

/-- Settles O43: the effects on the load side that change the phase are reset, LOAD, a failed session, the 20th header
byte and the last payload byte. -/
theorem phaseTransitions : Obligations.PhaseTransitions := by
  intro s t e rest hs h hne
  cases step_loadSide hs h with
  | same h => exact absurd h.phase hne
  | reset he _ => exact .inl he
  | write h => exact absurd h.keeps_phase hne
  | command i hc h =>
    cases h with
    | same h => exact absurd h.phase hne
    | opened hi ho ht =>
      obtain ⟨hp, _⟩ := (isOpen_eq_true _).mp ho
      subst ht
      exact .inr (.inl ⟨hp, rfl, hi ▸ hc, rfl⟩)
    | failed _ hp code hcode ht =>
      have hmem : code ∈ [LdStat.io, .hdrShort, .empty, .payloadShort, .alloc] := by
        revert hcode; cases code <;> decide
      subst ht
      exact .inr (.inr (.inr (.inl ⟨hp, rfl, hmem, rfl, rfl, rfl⟩)))
    | sealed _ _ _ ht | released _ _ ht => exact absurd (congrArg State.phase ht) hne
  | stream d hw h =>
    cases h with
    | discarded _ ht | header _ _ ht | payload _ _ _ _ ht => exact absurd (congrArg State.phase ht) hne
    | badHeader hp _ code _ _ _ hcode ht =>
      have hmem : code ∈ [LdStat.io, .hdrShort, .empty, .payloadShort, .alloc] := by
        rcases hcode with rfl | rfl <;> decide
      have hpne : s.phase ≠ .idle := by rw [show s.phase = .ldHeader from hp]; decide
      subst ht
      exact .inr (.inr (.inr (.inl ⟨hpne, rfl, hmem, rfl, rfl, rfl⟩)))
    | goodHeader hp hc e h n hn hfit ht =>
      have h20 : (s.ldCnt + 1).toNat = 20 := by
        rw [toNat_add_one _ (by change s.ldCnt.toNat = 19 at hc; omega)]
        exact congrArg (· + 1) hc
      subst ht
      exact .inr (.inr (.inl ⟨hp, rfl, hw, hc, h20, hn, hfit⟩))
    | complete hp _ _ hlast ht =>
      subst ht
      exact .inr (.inr (.inr (.inr ⟨hp, rfl, hw, rfl, rfl, hlast⟩)))

/-! ## The invariant (R50) -/

/-- The half of the invariant about the parameters and the three memories. -/
structure State.WellStored (s : State) : Prop where
  params_wellFormed : s.params.wellFormed = true
  bitmem_wf : Memory.wf s.bitmem
  keybuf_wf : Memory.wf s.keybuf
  ldHdr_wf : Memory.wf s.ldHdr
  bitmem_bounded : Memory.below s.params.bitmemCap s.bitmem
  keybuf_bounded : Memory.below s.params.keyCap s.keybuf
  ldHdr_bounded : Memory.below 20 s.ldHdr

theorem State.Inv.wellStored {s : State} (h : s.Inv) : s.WellStored :=
  ⟨h.params_wellFormed, h.bitmem_wf, h.keybuf_wf, h.ldHdr_wf, h.bitmem_bounded, h.keybuf_bounded, h.ldHdr_bounded⟩

/-- The memory half reads the parameters and the memories alone. -/
theorem State.WellStored.congr {s t : State} (h : s.WellStored) (hp : t.params = s.params) (hb : t.bitmem = s.bitmem)
    (hk : t.keybuf = s.keybuf) (hl : t.ldHdr = s.ldHdr) : t.WellStored := by
  obtain ⟨h1, h2, h3, h4, h5, h6, h7⟩ := h
  constructor <;> simp only [hp, hb, hk, hl] <;> assumption

/-- Nothing is listed in a memory whose whole content is unspecified. -/
theorem State.WellStored.of_unwritten {s : State} (hp : s.params.wellFormed = true) (hb : s.bitmem = [])
    (hk : s.keybuf = []) (hl : s.ldHdr = []) : s.WellStored := by
  constructor <;> simp [hp, hb, hk, hl]

theorem State.WellStored.dropBitmem {s : State} (h : s.WellStored) : s.dropBitmem.WellStored :=
  ⟨h.params_wellFormed, Memory.wf_nil, h.keybuf_wf, h.ldHdr_wf, Memory.below_nil _, h.keybuf_bounded, h.ldHdr_bounded⟩

theorem State.WellStored.storeBitmem {s : State} (h : s.WellStored) (k : Nat) (d : Byte)
    (hk : k < s.params.bitmemCap) : ({ s with bitmem := Memory.store s.bitmem k d } : State).WellStored :=
  ⟨h.params_wellFormed, Memory.wf_of_store _ _ _ h.bitmem_wf, h.keybuf_wf, h.ldHdr_wf,
    Memory.below_store _ _ _ _ hk h.bitmem_bounded, h.keybuf_bounded, h.ldHdr_bounded⟩

theorem State.WellStored.storeKeybuf {s : State} (h : s.WellStored) (k : Nat) (d : Byte)
    (hk : k < s.params.keyCap) : ({ s with keybuf := Memory.store s.keybuf k d } : State).WellStored :=
  ⟨h.params_wellFormed, h.bitmem_wf, Memory.wf_of_store _ _ _ h.keybuf_wf, h.ldHdr_wf, h.bitmem_bounded,
    Memory.below_store _ _ _ _ hk h.keybuf_bounded, h.ldHdr_bounded⟩

theorem State.WellStored.storeLdHdr {s : State} (h : s.WellStored) (k : Nat) (d : Byte) (hk : k < 20) :
    ({ s with ldHdr := Memory.store s.ldHdr k d } : State).WellStored :=
  ⟨h.params_wellFormed, h.bitmem_wf, h.keybuf_wf, Memory.wf_of_store _ _ _ h.ldHdr_wf, h.bitmem_bounded,
    h.keybuf_bounded, Memory.below_store _ _ _ _ hk h.ldHdr_bounded⟩

/-- The other half, about the instance and the load session (R50 items 1, 2, 3, 5 and R46). -/
structure State.SessionOk (s : State) : Prop where
  instance_fits : s.valid = true → s.phase = .idle ∧ ceil8 s.bitCount ≤ s.params.bitmemCap
  payload_phase : s.phase = .ldPayload → 0 < s.bitCount.toNat ∧ ceil8 s.bitCount ≤ s.params.bitmemCap ∧
    20 ≤ s.ldCnt.toNat ∧ s.ldCnt.toNat < 20 + ceil8 s.bitCount
  header_phase : s.phase = .ldHeader → s.ldCnt.toNat < 20 ∧ s.entries = 0 ∧ s.hashRounds = 0 ∧ s.bitCount = 0
  header_stored : s.phase = .ldHeader → ∀ k < s.ldCnt.toNat, (Memory.lookup s.ldHdr k).isSome = true
  loaded_instance : s.ldstat = .ok → s.valid = true ∧ 0 < s.bitCount.toNat

theorem State.Inv.sessionOk {s : State} (h : s.Inv) : s.SessionOk :=
  ⟨h.instance_fits, h.payload_phase, h.header_phase, h.header_stored, h.loaded_instance⟩

/-- The two halves are the invariant. -/
theorem State.Inv.of_halves {s : State} (hw : s.WellStored) (hs : s.SessionOk) : s.Inv :=
  { hw, hs with }

/-- Outside a session the invariant says only that an instance fits and that a loaded one is held and not empty. -/
theorem State.SessionOk.of_idle {s : State} (hp : s.phase = .idle)
    (hfit : s.valid = true → ceil8 s.bitCount ≤ s.params.bitmemCap)
    (hload : s.ldstat = .ok → s.valid = true ∧ 0 < s.bitCount.toNat) : s.SessionOk where
  instance_fits hv := ⟨hp, hfit hv⟩
  payload_phase h := by simp [hp] at h
  header_phase h := by simp [hp] at h
  header_stored h := by simp [hp] at h
  loaded_instance := hload

/-- In a session no instance is held (R50 item 1), and the load outcome is not `LD_OK` (R50 item 5). -/
theorem State.Inv.no_instance_of_session {s : State} (h : s.Inv) (hp : s.phase ≠ .idle) :
    s.valid ≠ true ∧ s.ldstat ≠ .ok := by
  have hv : s.valid ≠ true := fun hv => hp (h.instance_fits hv).1
  exact ⟨hv, fun hok => hv (h.loaded_instance hok).1⟩

/-- When Open no instance is held, so the load outcome is not `LD_OK` (R50 item 5). -/
theorem State.Inv.ldstat_ne_ok_of_open {s : State} (h : s.Inv) (ho : s.isOpen = true) : s.ldstat ≠ .ok := by
  intro hok
  simp [(h.loaded_instance hok).1] at ho

/-- The invariant reads the load side alone. -/
theorem SameLoadSide.inv {s t : State} (h : SameLoadSide s t) (hi : s.Inv) : t.Inv := by
  refine .of_halves (hi.wellStored.congr h.params h.bitmem h.keybuf h.ldHdr) ?_
  obtain ⟨h1, h2, h3, h4, h5⟩ := hi.sessionOk
  constructor <;>
    simp only [h.params, h.valid, h.phase, h.ldstat, h.entries, h.hashRounds, h.bitCount, h.ldCnt, h.ldHdr] <;>
    assumption

theorem inv_applyReset {s : State} (h : s.WellStored) : (applyReset s).Inv :=
  .of_halves (.of_unwritten h.params_wellFormed rfl rfl rfl) (.of_idle rfl (by simp) (by simp))

/-- A failed load meets the invariant whatever the session had reached. -/
theorem inv_loadFail {s : State} (h : s.WellStored) (code : LdStat) (hcode : code ≠ .ok) : (loadFail code s).Inv :=
  .of_halves (h.dropBitmem.congr rfl rfl rfl rfl) (.of_idle rfl (by simp) (by simp [hcode]))

/-- LOAD starts a session that meets the invariant (R171). -/
theorem inv_opened {s : State} (hw : s.WellStored) (hv : s.valid = false) :
    ({ s.withHeader 0 0 0 with ldCnt := 0, ldstat := .none, phase := .ldHeader } : State).Inv := by
  refine .of_halves (hw.congr rfl rfl rfl rfl) ⟨?_, ?_, ?_, ?_, ?_⟩ <;> simp [hv]

/-- Every effect of a command keeps the invariant. -/
theorem CommandEffect.inv {i : Instr} {s t : State} (h : CommandEffect i s t) (hi : s.Inv) : t.Inv := by
  cases h with
  | same h => exact h.inv hi
  | opened _ ho ht =>
    obtain ⟨_, hv⟩ := (isOpen_eq_true s).mp ho
    exact ht ▸ (sameLoadSide_withErr _ _).inv (inv_opened hi.wellStored hv)
  | failed _ _ code hcode ht =>
    have hne : code ≠ .ok := by rintro rfl; simp at hcode
    exact ht ▸ (sameLoadSide_withErr _ _).inv (inv_loadFail hi.wellStored code hne)
  | sealed _ ho hfit ht =>
    obtain ⟨hp, _⟩ := (isOpen_eq_true s).mp ho
    have hs : ({ s with valid := true, ldstat := .none } : State).Inv :=
      .of_halves (hi.wellStored.congr rfl rfl rfl rfl) (.of_idle hp (fun _ => hfit) (by simp))
    exact ht ▸ (sameLoadSide_withErr _ _).inv hs
  | released _ hp ht =>
    have hs : ({ (s.withHeader 0 0 0).dropBitmem with valid := false, ldCnt := 0, ldstat := .none } : State).Inv :=
      .of_halves (hi.wellStored.dropBitmem.congr rfl rfl rfl rfl) (.of_idle hp (by simp) (by simp))
    exact ht ▸ (sameLoadSide_withErr _ _).inv hs

/-- Every effect of a write to a register other than CMD and STREAM keeps the invariant. -/
theorem WriteEffect.inv {s t : State} (h : WriteEffect s t) (hi : s.Inv) : t.Inv := by
  cases h with
  | same h => exact h.inv hi
  | instanceRegister ho e h n ht =>
    obtain ⟨hp, hv⟩ := (isOpen_eq_true s).mp ho
    have hok := hi.ldstat_ne_ok_of_open ho
    subst ht
    exact .of_halves (hi.wellStored.congr rfl rfl rfl rfl) (.of_idle hp (by simp [hv]) (by simp [hok]))
  | keyWindow d hk ht =>
    obtain ⟨h1, h2, h3, h4, h5⟩ := hi.sessionOk
    subst ht
    exact .of_halves ((hi.wellStored.storeKeybuf _ d hk).congr rfl rfl rfl rfl) ⟨h1, h2, h3, h4, h5⟩
  | bitmemWindow d _ hb ht =>
    obtain ⟨h1, h2, h3, h4, h5⟩ := hi.sessionOk
    subst ht
    exact .of_halves ((hi.wellStored.storeBitmem _ d hb).congr rfl rfl rfl rfl) ⟨h1, h2, h3, h4, h5⟩

/-- A header byte before the 20th keeps the invariant: it is stored at LDCNT, which advances (R46, R172). -/
theorem inv_acceptHeaderByte {s : State} (d : Byte) (hi : s.Inv) (hp : s.phase = .ldHeader)
    (hc : s.ldCnt.toNat < 19) : (acceptHeaderByte d s).Inv := by
  have hadd : (s.ldCnt + 1).toNat = s.ldCnt.toNat + 1 := toNat_add_one _ (by omega)
  obtain ⟨hv, hok⟩ := hi.no_instance_of_session (by simp [hp])
  obtain ⟨_, hfields⟩ := hi.header_phase hp
  refine .of_halves ((hi.wellStored.storeLdHdr _ d (by omega)).congr rfl rfl rfl rfl)
    ⟨fun h => absurd h hv, ?_, ?_, ?_, fun h => absurd h hok⟩
  · intro h
    simp [hp] at h
  · intro _
    rw [acceptHeaderByte_ldCnt, hadd]
    exact ⟨by omega, hfields⟩
  · intro _ k hk
    rw [acceptHeaderByte_ldCnt, hadd] at hk
    rw [acceptHeaderByte_ldHdr]
    refine Memory.lookup_store_isSome _ _ _ _ ?_
    rcases Nat.lt_or_eq_of_le (Nat.le_of_lt_succ hk) with hlt | heq
    · exact .inr (hi.header_stored hp k hlt)
    · exact .inl heq

/-- The 20th header byte of a header that passes its checks opens a payload that meets the invariant (R173, R174). -/
theorem inv_goodHeader {s : State} (d : Byte) (hi : s.Inv) (hp : s.phase = .ldHeader) (hc : s.ldCnt.toNat = 19)
    (e : U64) (h : U32) (n : U64) (hn : n ≠ 0) (hfit : ceil8 n ≤ s.params.bitmemCap) :
    ({ (acceptHeaderByte d s).withHeader e h n with phase := .ldPayload } : State).Inv := by
  have hadd : (s.ldCnt + 1).toNat = 20 := by rw [toNat_add_one _ (by omega), hc]
  obtain ⟨hv, hok⟩ := hi.no_instance_of_session (by simp [hp])
  have hpos : 0 < n.toNat := Nat.pos_of_ne_zero fun h0 => hn (BitVec.eq_of_toNat_eq (by simpa using h0))
  have hceil := ceil8_pos n hn
  refine .of_halves ((hi.wellStored.storeLdHdr s.ldCnt.toNat d (by omega)).congr rfl rfl rfl rfl)
    ⟨fun h => absurd h hv, fun _ => ⟨hpos, hfit, ?_, ?_⟩, by simp, by simp, fun h => absurd h hok⟩
  · exact hadd.ge
  · exact hadd.trans_lt (by simpa using hceil)

/-- A payload byte that does not complete the load keeps the invariant: LDCNT advances and stays below its end. -/
theorem inv_acceptPayloadByte {s : State} (d : Byte) (hi : s.Inv) (hp : s.phase = .ldPayload)
    (hmore : (s.ldCnt + 1).toNat ≠ 20 + ceil8 s.bitCount) : (acceptPayloadByte d s).Inv := by
  obtain ⟨hpos, hfit, h20, hlt⟩ := hi.payload_phase hp
  have hceil := ceil8_le s.bitCount
  have hadd : (s.ldCnt + 1).toNat = s.ldCnt.toNat + 1 := toNat_add_one _ (by omega)
  obtain ⟨hv, hok⟩ := hi.no_instance_of_session (by simp [hp])
  refine .of_halves ((hi.wellStored.storeBitmem _ d (by omega)).congr rfl rfl rfl rfl) ⟨fun h => absurd h hv,
    fun _ => ⟨hpos, hfit, ?_⟩, by simp [hp], by simp [hp], fun h => absurd h hok⟩
  rw [acceptPayloadByte_ldCnt, acceptPayloadByte_bitCount]
  omega

/-- The byte that completes the load makes an instance that fits and is not empty (R175). -/
theorem inv_loadComplete {s : State} (d : Byte) (hi : s.Inv) (hp : s.phase = .ldPayload) :
    (loadComplete (acceptPayloadByte d s)).Inv := by
  obtain ⟨hpos, hfit, h20, hlt⟩ := hi.payload_phase hp
  exact .of_halves ((hi.wellStored.storeBitmem _ d (by omega)).congr rfl rfl rfl rfl)
    (.of_idle rfl (fun _ => hfit) (fun _ => ⟨rfl, hpos⟩))

/-- Every effect of a STREAM byte keeps the invariant. -/
theorem StreamEffect.inv {d : Byte} {s t : State} (h : StreamEffect d s t) (hi : s.Inv) : t.Inv := by
  cases h with
  | discarded _ ht => exact ht ▸ hi
  | header hp hc ht => exact ht ▸ inv_acceptHeaderByte d hi hp hc
  | badHeader _ hc code e h n hcode ht =>
    have hw : ((acceptHeaderByte d s).withHeader e h n).WellStored :=
      (hi.wellStored.storeLdHdr s.ldCnt.toNat d (by omega)).congr rfl rfl rfl rfl
    have hne : code ≠ .ok := by rcases hcode with rfl | rfl <;> decide
    exact ht ▸ inv_loadFail hw code hne
  | goodHeader hp hc e h n hn hfit ht => exact ht ▸ inv_goodHeader d hi hp hc e h n hn hfit
  | payload hp _ _ hmore ht => exact ht ▸ inv_acceptPayloadByte d hi hp hmore
  | complete hp _ _ _ ht => exact ht ▸ inv_loadComplete d hi hp

/-- Every effect of an event on the load side keeps the invariant. -/
theorem LoadSideEffect.inv {base : Nat} {e : HostEvent} {s t : State} (h : LoadSideEffect base e s t) (hi : s.Inv) :
    t.Inv := by
  cases h with
  | same h => exact h.inv hi
  | reset _ ht => exact ht ▸ inv_applyReset hi.wellStored
  | command i _ h => exact h.inv hi
  | stream d _ h => exact h.inv hi
  | write h => exact h.inv hi

/-- Settles O56: an idle step holds the state, and every effect of an event keeps the invariant. -/
theorem stepKeepsTheInvariant : Obligations.StepKeepsTheInvariant := by
  intro s t hi h
  rcases step_next s t h with ⟨_, rfl⟩ | ⟨e, rest, hs, _⟩
  · exact hi
  · exact (step_loadSide hs h).inv ((sameLoadSide_inbox s rest).inv hi)

/-- The reset state meets the invariant, for all parameters in their ranges. -/
theorem inv_resetWith {p : Params} (hp : p.wellFormed = true) : (State.resetWith p).Inv :=
  .of_halves (.of_unwritten hp rfl rfl rfl) (.of_idle rfl (by simp [State.resetWith]) (by simp [State.resetWith]))

/-- Nothing has been loaded in the reset state. -/
theorem loadedBytesWritten_resetWith (p : Params) : (State.resetWith p).LoadedBytesWritten := by
  constructor <;> simp [State.resetWith]

/-- The open numbers give parameters in the ranges of R7 and R77. -/
theorem wellFormed_configParams : Config.params.wellFormed = true := by
  have hb := Nat.mod_lt Config.openBitmemCap (show 2 ^ 61 > 0 by decide)
  refine (params_wellFormed_iff _).mpr ⟨?_, Nat.sub_le _ _, Nat.sub_le _ _, Nat.mul_mod_right _ _⟩
  show 1 ≤ 2 ^ 61 - Config.openBitmemCap % 2 ^ 61
  omega

/-- Settles O55: nothing is listed, no instance is held and no session runs. -/
theorem resetMeetsTheInvariant : Obligations.ResetMeetsTheInvariant :=
  ⟨fun p hp => ⟨inv_resetWith hp, loadedBytesWritten_resetWith p⟩, inv_resetWith wellFormed_configParams,
    loadedBytesWritten_resetWith _⟩

/-! ## What commands leave alone (R30, R36, R37, R206) -/

/-- A command that answers a next state either is refused, and then sets ERR alone, or ends with `E_OK` (R37, R206). -/
theorem exec_refused_or_ok (i : Instr) (s t : State) (h : exec i s = .next t) :
    (∃ e, t = s.withErr e) ∨ t.err = .ok := by
  cases i with
  | load => rcases execLoad_cases s t h with ⟨_, rfl⟩ | ⟨_, rfl⟩; exacts [.inr rfl, .inl ⟨_, rfl⟩]
  | loadEnd =>
    rcases execLoadEnd_cases s t h with ⟨_, rfl⟩ | ⟨_, rfl⟩ | ⟨_, rfl⟩; exacts [.inr rfl, .inr rfl, .inr rfl]
  | loadAbort => rcases execLoadAbort_cases s t h with ⟨_, rfl⟩ | ⟨_, rfl⟩; exacts [.inr rfl, .inr rfl]
  | sealInstance =>
    rcases execSeal_cases s t h with ⟨_, _, rfl⟩ | ⟨_, _, rfl⟩ | ⟨_, rfl⟩
    exacts [.inr rfl, .inl ⟨_, rfl⟩, .inl ⟨_, rfl⟩]
  | release => rcases execRelease_cases s t h with ⟨_, rfl⟩ | ⟨_, rfl⟩; exacts [.inl ⟨_, rfl⟩, .inr rfl]
  | hash => rcases execHash_cases s t h with ⟨_, rfl⟩ | ⟨_, rfl⟩; exacts [.inr rfl, .inl ⟨_, rfl⟩]
  | hashPair => rcases execHashPair_cases s t h with ⟨_, rfl⟩ | ⟨_, rfl⟩; exacts [.inr rfl, .inl ⟨_, rfl⟩]
  | index => rcases execIndex_cases s t h with ⟨_, rfl⟩ | ⟨_, rfl⟩; exacts [.inl ⟨_, rfl⟩, .inr rfl]
  | bitTest =>
    rcases execBitTest_cases s t h with ⟨_, rfl⟩ | ⟨_, _, rfl⟩ | ⟨_, _, r, _, rfl⟩
    exacts [.inl ⟨_, rfl⟩, .inl ⟨_, rfl⟩, .inr rfl]
  | contains =>
    rcases execContains_cases s t h with ⟨_, rfl⟩ | ⟨_, _, rfl⟩ | ⟨_, _, ⟨_, _, _, _, _, _, _, rfl⟩⟩
    exacts [.inr rfl, .inl ⟨_, rfl⟩, .inr rfl]

/-- Every register outside `rs` reads in `t` as in `s`, STATUS apart. -/
def AgreeOutside (rs : List Reg) (s t : State) : Prop :=
  ∀ r : Reg, r ≠ .status → r ∉ rs → readReg t r = readReg s r

/-- Setting ERR changes what STATUS reads as, and no other register. -/
theorem readReg_withErr (s : State) (e : Err) (r : Reg) (hr : r ≠ .status) :
    readReg (s.withErr e) r = readReg s r := by
  cases r <;> simp_all [readReg]

theorem agreeOutside_raise (rs : List Reg) (s : State) (e : Err) : AgreeOutside rs s (s.withErr e) :=
  fun r hr _ => readReg_withErr s e r hr

theorem AgreeOutside.complete {rs : List Reg} {s t : State} (h : AgreeOutside rs s t) :
    AgreeOutside rs s (t.withErr .ok) :=
  fun r hr hw => (readReg_withErr t .ok r hr).trans (h r hr hw)

theorem agreeOutside_header (s : State) (c : U64) (f : LdStat) (p : Phase) :
    AgreeOutside (Slice0.writtenRegs .load) s { s.withHeader 0 0 0 with ldCnt := c, ldstat := f, phase := p } := by
  intro r hr hw
  cases r <;> simp_all [readReg, Slice0.writtenRegs]

theorem agreeOutside_loadFail (s : State) (code : LdStat) :
    AgreeOutside [.entries, .hashRounds, .bitCount] s (loadFail code s) := by
  intro r hr hw
  cases r <;> simp_all [readReg]

theorem agreeOutside_withResult (rs : List Reg) (s : State) (a b : Bool) : AgreeOutside rs s (s.withResult a b) := by
  intro r hr _
  cases r <;> simp_all [readReg]

theorem agreeOutside_rounds {a b : U32} {left i : Nat} {s t : State}
    (h : RoundsEnd a b left i { s with h1 := a, h2 := b } t) : AgreeOutside (Slice0.writtenRegs .contains) s t := by
  obtain ⟨_, _, _, _, _, _, _, rfl⟩ := h
  intro r hr hw
  cases r <;> simp_all [readReg, Slice0.writtenRegs]

/-- A command writes no register outside its row of R30, STATUS apart. -/
theorem exec_agreeOutside (i : Instr) (s t : State) (h : exec i s = .next t) :
    AgreeOutside (Slice0.writtenRegs i) s t := by
  cases i with
  | load =>
    rcases execLoad_cases s t h with ⟨_, rfl⟩ | ⟨_, rfl⟩
    · exact (agreeOutside_header s _ _ _).complete
    · exact agreeOutside_raise _ s _
  | loadEnd =>
    rcases execLoadEnd_cases s t h with ⟨_, rfl⟩ | ⟨_, rfl⟩ | ⟨_, rfl⟩
    · exact (agreeOutside_loadFail s _).complete
    · exact (agreeOutside_loadFail s _).complete
    · exact agreeOutside_raise _ s _
  | loadAbort =>
    rcases execLoadAbort_cases s t h with ⟨_, rfl⟩ | ⟨_, rfl⟩
    · exact (agreeOutside_loadFail s _).complete
    · exact agreeOutside_raise _ s _
  | sealInstance =>
    rcases execSeal_cases s t h with ⟨_, _, rfl⟩ | ⟨_, _, rfl⟩ | ⟨_, rfl⟩
    · refine AgreeOutside.complete fun r hr _ => ?_
      cases r <;> simp_all [readReg]
    · exact agreeOutside_raise _ s _
    · exact agreeOutside_raise _ s _
  | release =>
    rcases execRelease_cases s t h with ⟨_, rfl⟩ | ⟨_, rfl⟩
    · exact agreeOutside_raise _ s _
    · refine AgreeOutside.complete fun r hr hw => ?_
      cases r <;> simp_all [readReg, Slice0.writtenRegs]
  | hash =>
    rcases execHash_cases s t h with ⟨_, rfl⟩ | ⟨_, rfl⟩
    · refine AgreeOutside.complete fun r hr hw => ?_
      cases r <;> simp_all [readReg, Slice0.writtenRegs]
    · exact agreeOutside_raise _ s _
  | hashPair =>
    rcases execHashPair_cases s t h with ⟨_, rfl⟩ | ⟨_, rfl⟩
    · refine AgreeOutside.complete fun r hr hw => ?_
      cases r <;> simp_all [readReg, Slice0.writtenRegs]
    · exact agreeOutside_raise _ s _
  | index =>
    rcases execIndex_cases s t h with ⟨_, rfl⟩ | ⟨_, rfl⟩
    · exact agreeOutside_raise _ s _
    · refine AgreeOutside.complete fun r hr hw => ?_
      cases r <;> simp_all [readReg, Slice0.writtenRegs]
  | bitTest =>
    rcases execBitTest_cases s t h with ⟨_, rfl⟩ | ⟨_, _, rfl⟩ | ⟨_, _, _, _, rfl⟩
    · exact agreeOutside_raise _ s _
    · exact agreeOutside_raise _ s _
    · exact (agreeOutside_withResult _ s _ _).complete
  | contains =>
    rcases execContains_cases s t h with ⟨_, rfl⟩ | ⟨_, _, rfl⟩ | ⟨_, _, hend⟩
    · exact (agreeOutside_withResult _ s _ _).complete
    · exact agreeOutside_raise _ s _
    · exact agreeOutside_rounds hend

/-- A command whose row of R30 does not say "unspec." leaves BITMEM alone. -/
theorem CommandEffect.keeps_bitmem {i : Instr} {s t : State} (h : CommandEffect i s t)
    (hi : Slice0.dropsBitmem i = false) : ∀ k, bitmemByte t k = bitmemByte s k := by
  cases h with
  | same h => exact bitmemByte_congr h.bitmem h.bitmemEpoch
  | opened _ _ ht | sealed _ _ _ ht => subst ht; exact bitmemByte_congr rfl rfl
  | failed hf _ _ _ _ => rcases hf with rfl | rfl <;> cases hi
  | released hr _ _ => subst hr; cases hi

/-- Settles O37: the registers by the rows of R30, the memories by what a command can do to the load side. -/
theorem commandsWriteOnlyTheirRow : Obligations.CommandsWriteOnlyTheirRow := by
  intro i s t h
  obtain ⟨hparams, hinbox, houtbox, hkeybuf, hldHdr, hepoch, _⟩ := exec_keeps i s t h
  exact ⟨exec_agreeOutside i s t h, keybufByte_congr hkeybuf hepoch, ldHdrByte_congr hldHdr hepoch,
    (exec_effect i s t h).keeps_bitmem, hparams, hinbox, houtbox⟩

/-- No STREAM byte writes ERR, RESULT or DEGEN. -/
theorem StreamEffect.keeps_flags {d : Byte} {s t : State} (h : StreamEffect d s t) :
    t.err = s.err ∧ t.result = s.result ∧ t.degen = s.degen := by
  cases h with
  | discarded _ ht | header _ _ ht | badHeader _ _ _ _ _ _ _ ht | goodHeader _ _ _ _ _ _ _ ht | payload _ _ _ _ ht
  | complete _ _ _ _ ht => subst ht; exact ⟨rfl, rfl, rfl⟩

/-- Settles O40: of the effects of an event, only reset, an illegal word and a command reach ERR. -/
theorem errIsWrittenByCmdOnly : Obligations.ErrIsWrittenByCmdOnly := by
  intro s t e rest hs hr hw h
  cases step_event s t e rest hs h with
  | reset he _ => exact absurd he hr
  | read _ _ ht | ignored _ _ _ _ ht => subst ht; rfl
  | illegal _ _ hc _ | command _ _ hc _ => simp [hw] at hc
  | stream d _ ht => exact (streamByte_effect d _ t ht).keeps_flags.1
  | write r v _ h1 h2 ht =>
    obtain ⟨_, _, _, _, _, _, _, herr, _⟩ := writeReg_keeps r v _ t h1 h2 ht
    exact herr

/-- No command but BITTEST and CONTAINS writes RESULT or DEGEN (R36). -/
theorem exec_keeps_result (i : Instr) (s t : State) (h : exec i s = .next t) (h1 : i ≠ .bitTest)
    (h2 : i ≠ .contains) : t.result = s.result ∧ t.degen = s.degen := by
  cases i with
  | load => rcases execLoad_cases s t h with ⟨_, rfl⟩ | ⟨_, rfl⟩ <;> exact ⟨rfl, rfl⟩
  | loadEnd => rcases execLoadEnd_cases s t h with ⟨_, rfl⟩ | ⟨_, rfl⟩ | ⟨_, rfl⟩ <;> exact ⟨rfl, rfl⟩
  | loadAbort => rcases execLoadAbort_cases s t h with ⟨_, rfl⟩ | ⟨_, rfl⟩ <;> exact ⟨rfl, rfl⟩
  | sealInstance => rcases execSeal_cases s t h with ⟨_, _, rfl⟩ | ⟨_, _, rfl⟩ | ⟨_, rfl⟩ <;> exact ⟨rfl, rfl⟩
  | release => rcases execRelease_cases s t h with ⟨_, rfl⟩ | ⟨_, rfl⟩ <;> exact ⟨rfl, rfl⟩
  | hash => rcases execHash_cases s t h with ⟨_, rfl⟩ | ⟨_, rfl⟩ <;> exact ⟨rfl, rfl⟩
  | hashPair => rcases execHashPair_cases s t h with ⟨_, rfl⟩ | ⟨_, rfl⟩ <;> exact ⟨rfl, rfl⟩
  | index => rcases execIndex_cases s t h with ⟨_, rfl⟩ | ⟨_, rfl⟩ <;> exact ⟨rfl, rfl⟩
  | bitTest => exact absurd rfl h1
  | contains => exact absurd rfl h2

/-- Settles O41: the other commands and every other event keep the two flags, and so does a command that is refused. -/
theorem resultIsWrittenByTestsOnly : Obligations.ResultIsWrittenByTestsOnly := by
  refine ⟨fun s t e rest hs hr hb hc h => ?_, fun i s t h herr => ?_⟩
  · cases step_event s t e rest hs h with
    | reset he _ => exact absurd he hr
    | read _ _ ht | ignored _ _ _ _ ht | illegal _ _ _ ht => subst ht; exact ⟨rfl, rfl⟩
    | command i hi _ ht =>
      have hkeep := exec_keeps_result i _ t ht (fun h => hb (h ▸ hi)) (fun h => hc (h ▸ hi))
      exact hkeep
    | stream d _ ht => exact (streamByte_effect d _ t ht).keeps_flags.2
    | write r v _ h1 h2 ht =>
      obtain ⟨_, _, _, _, _, hresult, hdegen, _⟩ := writeReg_keeps r v _ t h1 h2 ht
      exact ⟨hresult, hdegen⟩
  · rcases exec_refused_or_ok i s t h with ⟨e, rfl⟩ | hok
    · exact ⟨rfl, rfl⟩
    · exact absurd hok herr

/-! ## The register interface (R20, R21, R33, R43, R48) -/

/-- A step takes the first event from the inbox and handles it. -/
theorem step_cons {s : State} {e : HostEvent} {rest : List HostEvent} (hs : s.inbox = e :: rest) :
    step s = handle e { s with inbox := rest } := by
  simp only [step, handleNext, hs]

theorem Phase.code_ne_three (p : Phase) : p.code ≠ 3 := by cases p <;> decide

theorem Err.code_mem (e : Err) : e.code ∈ [(0 : BitVec 4), 5, 6, 7, 8, 9] := by cases e <;> decide

theorem LdStat.code_mem (l : LdStat) : l.code ∈ [(0 : BitVec 4), 1, 2, 3, 4, 5, 15] := by cases l <;> decide

/-- The flags stand in the bits R33 gives them. -/
theorem statusWord_flags (s : State) : (statusWord s).getLsbD 0 = s.valid ∧ (statusWord s).getLsbD 3 = s.result ∧
    (statusWord s).getLsbD 4 = s.degen := by
  simp only [statusWord, statusOf, BitVec.getLsbD_append, BitVec.getLsbD_ofBool]
  simp

/-- The codes and the reserved bits stand in the fields R33 gives them: the parts below a field are cut off one by
one. -/
theorem statusWord_codes (s : State) :
    (statusWord s).extractLsb' 1 2 = s.phase.code ∧ (statusWord s).extractLsb' 5 3 = 0 ∧
    (statusWord s).extractLsb' 8 4 = s.err.code ∧ (statusWord s).extractLsb' 12 4 = s.ldstat.code ∧
    (statusWord s).extractLsb' 16 16 = 0 := by
  simp (disch := decide) only [statusWord, statusOf, BitVec.extractLsb'_append_eq_of_le,
    BitVec.extractLsb'_append_eq_right, BitVec.extractLsb'_eq_self, and_self, Nat.reduceSub]

/-- Settles O42, from the places of the flags and the codes; which codes there are is a closed fact of each type. -/
theorem statusLayout : Obligations.StatusLayout := by
  refine ⟨fun s => ?_, by decide⟩
  obtain ⟨hvalid, hresult, hdegen⟩ := statusWord_flags s
  obtain ⟨hphase, hlow, herr, hldstat, hhigh⟩ := statusWord_codes s
  exact ⟨rfl, hvalid, hphase, hresult, hdegen, hlow, herr, hldstat, hhigh, hphase ▸ s.phase.code_ne_three,
    herr ▸ s.err.code_mem, hldstat ▸ s.ldstat.code_mem⟩

/-- Settles O50: a read puts the register its number selects into the outbox (R21), and 0 where it selects none. -/
theorem readsHaveNoSideEffect : Obligations.ReadsHaveNoSideEffect := by
  refine ⟨fun s rest n hs => ?_, fun s => ⟨rfl, rfl, rfl, rfl⟩⟩
  refine ⟨((decodeReg n).map (readReg s)).getD 0, ?_, ?_⟩
  · have hread : ∀ r, readReg { s with inbox := rest } r = readReg s r := fun r => by cases r <;> rfl
    rw [step_cons hs, ← funext hread]
    rfl
  · iterate 19 refine ⟨by rintro rfl; rfl, ?_⟩
    exact ⟨fun r hr => by simp [hr], fun hn => by simp [decodeReg_eq_none n hn]⟩

/-- A plain store: the register reads as the data cut to its width, every other register (STATUS
with its flags among them) as before, and no memory byte and nothing of the host's side changes. -/
structure PlainStore (r : Reg) (width : Nat) (v : U64) (s t : State) : Prop where
  stored : (readReg t r).toNat = v.toNat % 2 ^ width
  registers : ∀ r', r' ≠ r → readReg t r' = readReg s r'
  bitmem : ∀ k, bitmemByte t k = bitmemByte s k
  keybuf : ∀ k, keybufByte t k = keybufByte s k
  ldHdr : ∀ k, ldHdrByte t k = ldHdrByte s k
  params : t.params = s.params
  inbox : t.inbox = s.inbox
  outbox : t.outbox = s.outbox

theorem writeReg_plain (r : Reg) (width : Nat) (v : U64) (s : State) (h : Slice0.plainWidth r = some width) :
    ∃ t, writeReg r v s = .next t ∧ PlainStore r width v s t := by
  cases r <;> simp only [Slice0.plainWidth, Option.some.injEq, reduceCtorEq] at h <;> subst h <;>
  · refine ⟨_, rfl, ?_, fun r' hr => ?_, fun _ => rfl, fun _ => rfl, fun _ => rfl, rfl, rfl, rfl⟩
    · simp only [readReg, BitVec.toNat_setWidth]
      omega
    · cases r' <;> simp_all [readReg, statusWord]

theorem writeReg_open (r : Reg) (width : Nat) (v : U64) (s : State) (h : Slice0.openWidth r = some width)
    (ho : s.isOpen = true) : ∃ t, writeReg r v s = .next t ∧ PlainStore r width v s t := by
  cases r <;> simp only [Slice0.openWidth, Option.some.injEq, reduceCtorEq] at h <;> subst h <;>
  · refine ⟨_, congrArg Host.Outcome.next (if_pos ho), ?_, fun r' hr => ?_, fun _ => rfl, fun _ => rfl, fun _ => rfl,
      rfl, rfl, rfl⟩
    · simp only [readReg, BitVec.toNat_setWidth]
      omega
    · cases r' <;> simp_all [readReg, statusWord]

/-- Settles O48: a register of either kind takes a plain store. -/
theorem plainWritesStoreTheLowBits : Obligations.PlainWritesStoreTheLowBits := by
  intro r width v s h
  have hstore : ∃ t, writeReg r v s = .next t ∧ PlainStore r width v s t := by
    rcases h with h | ⟨h, ho⟩
    · exact writeReg_plain r width v s h
    · exact writeReg_open r width v s h ho
  obtain ⟨t, ht, h⟩ := hstore
  exact ⟨t, (hostWrite_reg r v s).trans ht, h.stored, h.registers, h.bitmem, h.keybuf, h.ldHdr, h.params, h.inbox,
    h.outbox⟩

/-- A byte pushed through the key window stands at KADDR, and every other KEYBUF byte stays (R43). -/
theorem keybufByte_store (s : State) (j k : Nat) (d : Byte) (a : U32) :
    keybufByte { s with keybuf := Memory.store s.keybuf j d, kAddr := a } k = if k = j then d else keybufByte s k := by
  split_ifs with h
  · subst h
    simp [keybufByte]
  · simp [keybufByte, readByte_store_other _ _ _ _ _ _ h]

/-- A byte pushed through the bit-memory window stands at BMADDR, and every other BITMEM byte stays (R48). -/
theorem bitmemByte_store (s : State) (j k : Nat) (d : Byte) (a : U64) :
    bitmemByte { s with bitmem := Memory.store s.bitmem j d, bmAddr := a } k = if k = j then d else bitmemByte s k := by
  split_ifs with h
  · subst h
    simp [bitmemByte]
  · simp [bitmemByte, readByte_store_other _ _ _ _ _ _ h]

theorem pushKeyByte_of_lt (d : Byte) (s : State) (h : s.kAddr.toNat < s.params.keyCap) :
    pushKeyByte d s = { s with keybuf := Memory.store s.keybuf s.kAddr.toNat d, kAddr := s.kAddr + 1 } := if_pos h

theorem pushKeyByte_of_ge (d : Byte) (s : State) (h : s.params.keyCap ≤ s.kAddr.toNat) : pushKeyByte d s = s :=
  if_neg (by omega)

/-- Settles O51, by the two cases of the key window; below KEY_CAP the 32 bits of KADDR do not wrap. -/
theorem kdataWritesTheKeyBuffer : Obligations.KdataWritesTheKeyBuffer := by
  refine ⟨fun s v hcap hlt => ?_, fun s v hge => ?_, fun s => rfl⟩
  · refine ⟨_, congrArg Host.Outcome.next (pushKeyByte_of_lt (v.setWidth 8) s hlt), ?_, fun k hk => ?_, ?_, rfl⟩
    · rw [keybufByte_store, if_pos rfl]
    · rw [keybufByte_store, if_neg hk]
    · show (s.kAddr + 1).toNat = s.kAddr.toNat + 1
      simp
      omega
  · exact congrArg Host.Outcome.next (pushKeyByte_of_ge (v.setWidth 8) s hge)

/-- Settles O52, by the two cases of the bit-memory window; below BITMEM_CAP the 64 bits of BMADDR do not wrap. -/
theorem bmdataWritesBitmemWhenOpen : Obligations.BmdataWritesBitmemWhenOpen := by
  refine ⟨fun s v hcap hp hv hlt => ?_, fun s v hno => ?_, fun s => rfl⟩
  · have hpush : pushBitmemByte (v.setWidth 8) s =
        { s with bitmem := Memory.store s.bitmem s.bmAddr.toNat (v.setWidth 8), bmAddr := s.bmAddr + 1 } :=
      if_pos ⟨(isOpen_eq_true s).mpr ⟨hp, hv⟩, hlt⟩
    refine ⟨_, congrArg Host.Outcome.next hpush, ?_, fun k hk => ?_, toNat_add_one _ (by omega), rfl⟩
    · rw [bitmemByte_store, if_pos rfl]
    · rw [bitmemByte_store, if_neg hk]
  · rcases pushBitmemByte_cases (v.setWidth 8) s with ⟨ho, hlt, _⟩ | ⟨_, he⟩
    · obtain ⟨hp, hv⟩ := (isOpen_eq_true s).mp ho
      simp [hp, hv] at hno
      omega
    · exact congrArg Host.Outcome.next he

/-! ## CMD writes, reset, and the key window as a whole (R38, R42, R43, R51) -/

/-- A step on a CMD write runs the low 32 bits of the data as a command word. -/
theorem step_cmdWrite {s : State} {v : U64} {rest : List HostEvent} (hs : s.inbox = Slice0.wr 0 v :: rest) :
    step s = command (v.setWidth 32) { s with inbox := rest } :=
  step_cons hs

theorem command_of_decode {w : U32} {i : Instr} (h : decode w = some i) (s : State) : command w s = exec i s := by
  simp only [command, h]

theorem command_of_illegal {w : U32} (h : decode w = none) (s : State) : command w s = .next (s.withErr .illegal) := by
  simp only [command, h, raise_eq]

/-- Settles O4: only the low 32 bits of the data reach the decoder. -/
theorem stepRunsTheDecodedCommand : Obligations.StepRunsTheDecodedCommand := by
  refine ⟨fun s rest v i hs hd => ?_, fun s rest v hs hd => ?_, fun s rest v v' hv => ?_, fun s => rfl⟩
  · rw [step_cmdWrite hs, command_of_decode hd]
  · rw [step_cmdWrite hs, command_of_illegal hd]
    rfl
  · rw [step_cmdWrite rfl, step_cmdWrite rfl, hv]

/-- Settles O5: the 64-bit data of the placed write has the table word as its low 32 bits. -/
theorem placedWordRuns : Obligations.PlacedWordRuns := by
  intro s w i h
  have hw : decode ((BitVec.ofNat 64 (w % 2 ^ 32)).setWidth 32) = some i := by
    rw [← h, decodeTableWord, if_pos (le_refl 32)]
    congr 1
    apply BitVec.eq_of_toNat_eq
    simp
  rw [step_cmdWrite (s := s.withFetchWord 32 w) rfl, command_of_decode hw]
  rfl

theorem readReg_resetWith (p : Params) (r : Reg) : readReg (State.resetWith p) r = 0 := by
  cases r with
  | status =>
    show (statusOf .none .ok false false .idle false).setWidth 64 = 0
    decide
  | _ => rfl

/-- A degenerate CONTAINS answers absent (R152). -/
theorem execContains_of_degenerate {s : State} (h : s.isDegenerate = true) :
    execContains s = .next ((s.withResult false true).withErr .ok) := by
  simp only [execContains, h, if_true, complete_eq]

/-- Settles O7: every register reads 0, and the state is degenerate, so CONTAINS takes its fallback. -/
theorem resetLeavesTheBlockOpenAndEmpty : Obligations.ResetLeavesTheBlockOpenAndEmpty := by
  refine ⟨fun p => ⟨readReg_resetWith p, rfl, fun _ => rfl, fun _ => rfl, fun _ => rfl, rfl, ?_⟩, rfl⟩
  exact ⟨_, execContains_of_degenerate (s := State.resetWith p) rfl, rfl, rfl, rfl⟩

/-- The KDATA write that delivers a key byte (R43, R99). -/
def keyWrite (b : Byte) : HostEvent := Slice0.wr 7 (b.setWidth 64)

theorem handle_keyWrite (b : Byte) (s : State) : handle (keyWrite b) s = .next (pushKeyByte b s) := by
  show Host.Outcome.next (pushKeyByte ((b.setWidth 64).setWidth 8) s) = _
  rw [b8]

/-- A run of KDATA writes inside the key buffer: the bytes stand in KEYBUF from KADDR on (R43). -/
theorem run_key_bytes (bs : List Byte) (rest : List HostEvent) (s : State) (hcap : s.params.keyCap ≤ 2 ^ 32 - 1)
    (hfit : s.kAddr.toNat + bs.length ≤ s.params.keyCap) (hs : s.inbox = bs.map keyWrite ++ rest) :
    ∃ t : State, Host.Core.run Sys2Proof.core bs.length s = .next t ∧
      t = { s with keybuf := t.keybuf, kAddr := t.kAddr, inbox := rest } ∧
      t.kAddr.toNat = s.kAddr.toNat + bs.length ∧
      ∀ k, keybufByte t k = if s.kAddr.toNat ≤ k ∧ k < s.kAddr.toNat + bs.length then
        bs.getD (k - s.kAddr.toNat) 0 else keybufByte s k := by
  induction bs generalizing s with
  | nil =>
    have hrest : s.inbox = rest := hs
    subst hrest
    exact ⟨s, rfl, rfl, rfl, fun k => (if_neg (by simp)).symm⟩
  | cons b bs ih =>
    have hlen : s.kAddr.toNat + (bs.length + 1) ≤ s.params.keyCap := hfit
    have hadd : (s.kAddr + 1).toNat = s.kAddr.toNat + 1 := by simp; omega
    obtain ⟨u, hu⟩ : ∃ u : State, u =
        { s with keybuf := Memory.store s.keybuf s.kAddr.toNat b, kAddr := s.kAddr + 1,
                 inbox := bs.map keyWrite ++ rest } := ⟨_, rfl⟩
    have huaddr : u.kAddr.toNat = s.kAddr.toNat + 1 := by rw [hu]; exact hadd
    have hstep : handle (keyWrite b) { s with inbox := bs.map keyWrite ++ rest } = .next u := by
      rw [handle_keyWrite, hu]
      exact congrArg Host.Outcome.next (pushKeyByte_of_lt b _ (show s.kAddr.toNat < s.params.keyCap by omega))
    have hbyte : ∀ k, keybufByte u k = if k = s.kAddr.toNat then b else keybufByte s k := fun k => by
      rw [← keybufByte_store s s.kAddr.toNat k b (s.kAddr + 1), hu]
      rfl
    obtain ⟨t, hrun, hframe, haddr, hbytes⟩ := ih u (by rw [hu]; exact hcap)
      (by rw [huaddr, hu]; show _ ≤ s.params.keyCap; omega) (by rw [hu])
    have hcons := core_run_events (keyWrite b) (bs.map keyWrite) rest s u hs hstep
    rw [List.length_cons, List.length_map, hrun] at hcons
    refine ⟨t, hcons, ?_, ?_, fun k => ?_⟩
    · rw [hframe, hu]
    · rw [haddr, huaddr, List.length_cons]
      omega
    · rw [hbytes k, huaddr, hbyte k, List.length_cons]
      rcases Nat.lt_trichotomy k s.kAddr.toNat with hk | rfl | hk
      · rw [if_neg (by omega), if_neg (by omega), if_neg (by omega)]
      · rw [if_neg (by omega), if_pos rfl, if_pos (by omega), Nat.sub_self, List.getD_cons_zero]
      · rw [if_neg (show k ≠ s.kAddr.toNat by omega),
          show k - s.kAddr.toNat = k - (s.kAddr.toNat + 1) + 1 by omega, List.getD_cons_succ]
        exact if_congr (by omega) rfl rfl

/-- The key is the bytes that stand in KEYBUF from offset 0 on (R42). -/
theorem key_eq_of_bytes {s : State} {bytes : List Byte} (hlen : s.keyLen.toNat = bytes.length)
    (hb : ∀ k, k < bytes.length → keybufByte s k = bytes.getD k 0) : key s = bytes := by
  apply List.ext_getElem
  · simp [key, hlen]
  · intro k h1 h2
    simp [key, hb k h2, h2]

/-- The host sequence that writes a key: KADDR 0, the bytes through KDATA, then KEYLEN (R99). -/
theorem run_key_sequence (bytes : List Byte) (s : State) (hcap : s.params.keyCap ≤ 2 ^ 32 - 1)
    (hlen : bytes.length ≤ s.params.keyCap) :
    ∃ t : State, Slice0.runHost
        (Slice0.wr 6 0 :: bytes.map keyWrite ++ [Slice0.wr 5 (BitVec.ofNat 64 bytes.length)]) s = .next t ∧
      t = { s with keybuf := t.keybuf, kAddr := t.kAddr, keyLen := t.keyLen } ∧ t.kAddr.toNat = bytes.length ∧
      t.keyLen.toNat = bytes.length ∧
      ∀ k, keybufByte t k = if k < bytes.length then bytes.getD k 0 else keybufByte s k := by
  obtain ⟨lenWrite, hlw⟩ : ∃ e, e = Slice0.wr 5 (BitVec.ofNat 64 bytes.length) := ⟨_, rfl⟩
  rw [← hlw]
  obtain ⟨u, hu⟩ : ∃ u : State,
      u = { s with kAddr := 0, inbox := bytes.map keyWrite ++ [lenWrite] ++ s.inbox } := ⟨_, rfl⟩
  have hzero : u.kAddr.toNat = 0 := by rw [hu]; rfl
  obtain ⟨t, hrun, hframe, haddr, hbytes⟩ := run_key_bytes bytes ([lenWrite] ++ s.inbox) u (by rw [hu]; exact hcap)
    (by rw [hzero, hu]; show 0 + _ ≤ s.params.keyCap; omega) (by rw [hu, List.append_assoc])
  have hlast : step t = .next { t with keyLen := (BitVec.ofNat 64 bytes.length).setWidth 32, inbox := s.inbox } := by
    rw [step_cons (show t.inbox = lenWrite :: s.inbox by rw [hframe]; rfl), hlw]
    rfl
  have hall := core_run_events (Slice0.wr 6 0) (bytes.map keyWrite ++ [lenWrite]) s.inbox
    { s with inbox := Slice0.wr 6 0 :: (bytes.map keyWrite ++ [lenWrite]) ++ s.inbox } u rfl (by rw [hu]; rfl)
  rw [show (bytes.map keyWrite ++ [lenWrite]).length = bytes.length + 1 by simp, core_run_add _ _ _ _ hrun,
    core_run_succ _ _ _ hlast, core_run_zero] at hall
  refine ⟨_, hall, ?_, ?_, ?_, fun k => ?_⟩
  · rw [hframe, hu]
  · simpa [hzero] using haddr
  · show ((BitVec.ofNat 64 bytes.length).setWidth 32).toNat = bytes.length
    simp
    omega
  · have hsame : keybufByte u k = keybufByte s k := keybufByte_congr (by rw [hu]) (by rw [hu]) k
    refine (keybufByte_congr (s := t) rfl rfl k).trans ?_
    simpa [hzero, hsame] using hbytes k

/-- Settles O24: the count of the bytes fits the 32 bits of KEYLEN, so the key is the bytes of the sequence. -/
theorem writtenBytesAreTheKey : Obligations.WrittenBytesAreTheKey := by
  intro s bytes hwf hlen
  obtain ⟨_, _, hcap, _⟩ := (params_wellFormed_iff _).mp hwf
  obtain ⟨t, hrun, hframe, haddr, hkeyLen, hbytes⟩ := run_key_sequence bytes s hcap hlen
  refine ⟨t, hrun, key_eq_of_bytes hkeyLen fun k hk => ?_, haddr, hkeyLen, fun k hk => ?_, hframe⟩
  · rw [hbytes, if_pos hk]
  · rw [hbytes, if_neg (by omega)]

end Sys2Proof.Machine
end

section
/-! The memory family: the bytes a load has written, who writes KEYBUF, accesses through the platform, and that nothing
faults where the invariant holds (R60 to R80). -/

namespace Sys2Proof.Machine

/-! ## The bytes of a loaded instance (R61, R175) -/

/-- What is said of loaded bytes reads the phase, the load outcome, LDCNT, BITCOUNT and BITMEM alone. -/
theorem State.LoadedBytesWritten.congr {s t : State} (h : s.LoadedBytesWritten) (hp : t.phase = s.phase)
    (hl : t.ldstat = s.ldstat) (hc : t.ldCnt = s.ldCnt) (hn : t.bitCount = s.bitCount) (hb : t.bitmem = s.bitmem) :
    t.LoadedBytesWritten := by
  obtain ⟨hduring, hafter⟩ := h
  constructor <;> simp only [hp, hl, hc, hn, hb] <;> assumption

/-- Outside a payload and without a loaded instance no byte need be written. -/
theorem State.LoadedBytesWritten.of_not_loaded {s : State} (hp : s.phase ≠ .ldPayload) (hl : s.ldstat ≠ .ok) :
    s.LoadedBytesWritten :=
  ⟨fun h => absurd h hp, fun h => absurd h hl⟩

theorem SameLoadSide.loadedBytesWritten {s t : State} (h : SameLoadSide s t) (hw : s.LoadedBytesWritten) :
    t.LoadedBytesWritten :=
  hw.congr h.phase h.ldstat h.ldCnt h.bitCount h.bitmem

/-- Every command that reaches the load side leaves it without a payload phase and without a loaded instance. -/
theorem CommandEffect.loadedBytesWritten {i : Instr} {s t : State} (h : CommandEffect i s t)
    (hw : s.LoadedBytesWritten) : t.LoadedBytesWritten := by
  cases h with
  | same h => exact h.loadedBytesWritten hw
  | opened _ _ ht => subst ht; exact .of_not_loaded (by simp) (by simp)
  | failed _ _ code hcode ht =>
    have hne : code ≠ .ok := by rintro rfl; simp at hcode
    subst ht
    exact .of_not_loaded (by simp) (by simpa using hne)
  | sealed _ ho _ ht =>
    obtain ⟨hp, _⟩ := (isOpen_eq_true s).mp ho
    subst ht
    exact .of_not_loaded (by simp [hp]) (by simp)
  | released _ hp ht => subst ht; exact .of_not_loaded (by simp [hp]) (by simp)

/-- A write changes BITCOUNT or BITMEM only when Open, and then no instance is loaded. -/
theorem WriteEffect.loadedBytesWritten {s t : State} (h : WriteEffect s t) (hi : s.Inv) (hw : s.LoadedBytesWritten) :
    t.LoadedBytesWritten := by
  cases h with
  | same h => exact h.loadedBytesWritten hw
  | keyWindow _ _ ht => subst ht; exact hw.congr rfl rfl rfl rfl rfl
  | instanceRegister ho _ _ _ ht | bitmemWindow _ ho _ ht =>
    obtain ⟨hp, _⟩ := (isOpen_eq_true s).mp ho
    subst ht
    exact .of_not_loaded (by simp [hp]) (hi.ldstat_ne_ok_of_open ho)

/-- In a payload LDCNT stands below its end, so its next value does not wrap (R50 item 2). -/
theorem State.Inv.toNat_ldCnt_add_one {s : State} (hi : s.Inv) (hp : s.phase = .ldPayload) :
    (s.ldCnt + 1).toNat = s.ldCnt.toNat + 1 := by
  obtain ⟨_, _, _, hlt⟩ := hi.payload_phase hp
  have hceil := ceil8_le s.bitCount
  exact toNat_add_one _ (by omega)

/-- The payload bytes accepted so far, the newest of them at LDCNT - 20, are written (R68, R172). -/
theorem acceptPayloadByte_written (d : Byte) {s : State} (hw : s.LoadedBytesWritten) (hp : s.phase = .ldPayload)
    (k : Nat) (hk : k ≤ s.ldCnt.toNat - 20) : (Memory.lookup (acceptPayloadByte d s).bitmem k).isSome = true := by
  rw [acceptPayloadByte_bitmem]
  refine Memory.lookup_store_isSome _ _ _ _ ?_
  rcases Nat.lt_or_eq_of_le hk with hlt | heq
  · exact .inr (hw.during_payload hp k hlt)
  · exact .inl heq

/-- A session has no loaded instance until its last byte, and that byte is the last of the `ceil8 BITCOUNT` bytes. -/
theorem StreamEffect.loadedBytesWritten {d : Byte} {s t : State} (h : StreamEffect d s t) (hi : s.Inv)
    (hw : s.LoadedBytesWritten) : t.LoadedBytesWritten := by
  have hnotOk : s.phase ≠ .idle → s.ldstat ≠ .ok := fun hp => (hi.no_instance_of_session hp).2
  cases h with
  | discarded _ ht => exact ht ▸ hw
  | header hp _ ht =>
    subst ht
    exact .of_not_loaded (by simp [hp]) (hnotOk (by simp [hp]))
  | badHeader _ _ code _ _ _ hcode ht =>
    subst ht
    exact .of_not_loaded (by simp) (by rcases hcode with rfl | rfl <;> simp)
  | goodHeader hp hc _ _ _ _ _ ht =>
    have h20 : (s.ldCnt + 1).toNat = 20 := by rw [toNat_add_one _ (by omega), hc]
    subst ht
    refine ⟨fun _ k hk => ?_, fun hok => absurd hok (hnotOk (by simp [hp]))⟩
    change k < (s.ldCnt + 1).toNat - 20 at hk
    omega
  | payload hp _ _ _ ht =>
    have hadd := hi.toNat_ldCnt_add_one hp
    subst ht
    refine ⟨fun _ k hk => ?_, fun hok => absurd hok (hnotOk (by simp [hp]))⟩
    rw [acceptPayloadByte_ldCnt, hadd] at hk
    exact acceptPayloadByte_written d hw hp k (by omega)
  | complete hp _ _ hlast ht =>
    have hadd := hi.toNat_ldCnt_add_one hp
    subst ht
    refine ⟨fun h => by simp at h, fun _ k hk => ?_⟩
    rw [loadComplete_bitCount, acceptPayloadByte_bitCount] at hk
    exact acceptPayloadByte_written d hw hp k (by omega)

theorem LoadSideEffect.loadedBytesWritten {base : Nat} {e : HostEvent} {s t : State} (h : LoadSideEffect base e s t)
    (hi : s.Inv) (hw : s.LoadedBytesWritten) : t.LoadedBytesWritten := by
  cases h with
  | same h => exact h.loadedBytesWritten hw
  | reset _ ht => subst ht; exact .of_not_loaded (by simp) (by simp)
  | command i _ h => exact h.loadedBytesWritten hw
  | stream d _ h => exact h.loadedBytesWritten hi hw
  | write h => exact h.loadedBytesWritten hi hw

/-- Settles O57: an idle step holds the state, and every effect of an event keeps the loaded bytes written. -/
theorem stepKeepsLoadedBytesWritten : Obligations.StepKeepsLoadedBytesWritten := by
  intro s t hi hw h
  rcases step_next s t h with ⟨_, rfl⟩ | ⟨e, rest, hs, _⟩
  · exact hw
  · have htaken := sameLoadSide_inbox s rest
    exact (step_loadSide hs h).loadedBytesWritten (htaken.inv hi) (htaken.loadedBytesWritten hw)

/-! ## Who writes the memories (R62, R80) -/

/-- A query leaves the whole load side alone: each effect that reaches it belongs to another command. -/
theorem CommandEffect.same_of_query {i : Instr} {s t : State} (h : CommandEffect i s t)
    (hq : i ∈ [Instr.hash, .hashPair, .index, .bitTest, .contains]) : SameLoadSide s t := by
  cases h with
  | same h => exact h
  | opened hi _ _ | sealed hi _ _ _ | released hi _ _ => subst hi; simp at hq
  | failed hi _ _ _ _ => rcases hi with rfl | rfl <;> simp at hq

/-- Settles O36. -/
theorem queriesAreReadOnly : Obligations.QueriesAreReadOnly := by
  intro i s t hq h
  have hsame := (exec_effect i s t h).same_of_query hq
  obtain ⟨_, _, _, hkeybuf, _, hepoch, _⟩ := exec_keeps i s t h
  exact ⟨hsame.entries, hsame.hashRounds, hsame.bitCount, hsame.valid, hsame.phase, hsame.ldCnt, hsame.ldstat,
    keybufByte_congr hkeybuf hepoch, bitmemByte_congr hsame.bitmem hsame.bitmemEpoch⟩

theorem StreamEffect.keeps_keybuf {d : Byte} {s t : State} (h : StreamEffect d s t) :
    t.keybuf = s.keybuf ∧ t.resetEpoch = s.resetEpoch := by
  cases h with
  | discarded _ ht | header _ _ ht | badHeader _ _ _ _ _ _ _ ht | goodHeader _ _ _ _ _ _ _ ht | payload _ _ _ _ ht
  | complete _ _ _ _ ht => subst ht; exact ⟨rfl, rfl⟩

/-- Of the plain registers and windows only KDATA reaches KEYBUF. -/
theorem writeReg_keeps_keybuf (r : Reg) (v : U64) (s t : State) (h1 : r ≠ .cmd) (h2 : r ≠ .stream)
    (h3 : r ≠ .kData) (h : writeReg r v s = .next t) : t.keybuf = s.keybuf := by
  cases r <;> simp only [writeReg, Host.Outcome.next.injEq, ne_eq, not_true_eq_false] at h h1 h2 h3 <;> subst h
  case bmData => rcases pushBitmemByte_cases (v.setWidth 8) s with ⟨_, _, h⟩ | ⟨_, h⟩ <;> rw [h]
  case entries | hashRounds | bitCount => split_ifs <;> rfl
  all_goals rfl

/-- Settles O46: of the effects of an event, only reset and the key window reach KEYBUF. -/
theorem keybufIsWrittenByKdataOnly : Obligations.KeybufIsWrittenByKdataOnly := by
  intro s t e rest hs hr hk h
  cases step_event s t e rest hs h with
  | reset he _ => exact absurd he hr
  | read _ _ ht | ignored _ _ _ _ ht | illegal _ _ _ ht => subst ht; exact keybufByte_congr rfl rfl
  | command i _ _ ht =>
    obtain ⟨_, _, _, hkeybuf, _, hepoch, _⟩ := exec_keeps i _ t ht
    exact keybufByte_congr hkeybuf hepoch
  | stream d _ ht =>
    obtain ⟨hkeybuf, hepoch⟩ := (streamByte_effect d _ t ht).keeps_keybuf
    exact keybufByte_congr hkeybuf hepoch
  | write r v hw h1 h2 ht =>
    have h3 : r ≠ .kData := by rintro rfl; simp [hw] at hk
    obtain ⟨_, _, _, _, _, _, _, _, _, _, _, hepoch, _⟩ := writeReg_keeps r v _ t h1 h2 ht
    have hkeybuf := writeReg_keeps_keybuf r v _ t h1 h2 h3 ht
    exact keybufByte_congr hkeybuf hepoch

/-! ## Accesses through the platform (R71, R77) -/

theorem inRegion_eq_true (base : Nat) (a : BusAccess) :
    a.inRegion base = true ↔ base ≤ a.addr ∧ a.addr < base + 256 := by
  simp [BusAccess.inRegion]

theorem aligned_eq_true (base : Nat) (a : BusAccess) :
    a.aligned base = true ↔ a.bytes = 8 ∧ (a.addr - base) % 8 = 0 := by
  simp [BusAccess.aligned]

/-- The access that carries a transaction decodes to that transaction. -/
theorem decodeAccess_encodeAccess (base : Nat) (tr : Transaction) :
    decodeAccess base (encodeAccess base tr) = some tr := by
  cases tr <;> simp [decodeAccess, encodeAccess, aligned_eq_true]

theorem decodeAccess_of_not_aligned {base : Nat} {a : BusAccess} (h : ¬ a.aligned base = true) :
    decodeAccess base a = none :=
  if_neg h

theorem busAccess_of_decode {a : BusAccess} {tr : Transaction} {s : State} (hr : a.inRegion s.params.regBase = true)
    (hd : decodeAccess s.params.regBase a = some tr) : busAccess a s = transact tr s := by
  simp only [busAccess, hr, hd, if_true]

theorem busAccess_of_no_transaction {a : BusAccess} {s : State} (hr : a.inRegion s.params.regBase = true)
    (hd : decodeAccess s.params.regBase a = none) : busAccess a s = .refused .accessNotARegisterTransaction := by
  simp only [busAccess, hr, hd, if_true]

theorem busAccess_of_outside {a : BusAccess} {s : State} (hr : ¬ a.inRegion s.params.regBase = true) :
    busAccess a s = .refused .accessOutsideRegion :=
  if_neg hr

/-- Register number `n`, at offset `8 * n`, lies in the region. -/
theorem inRegion_register (base n : Nat) (data : Option U64) (hn : n < 32) :
    BusAccess.inRegion base ⟨base + 8 * n, 8, data⟩ = true :=
  (inRegion_eq_true _ _).mpr ⟨Nat.le_add_right _ _, by show base + 8 * n < base + 256; omega⟩

/-- Settles O53: the access at `REG_BASE + 8n` is the encoding of the transaction on register `n`; an access that is not
one is refused by its place and its alignment. -/
theorem busAccessesReachTheirRegister : Obligations.BusAccessesReachTheirRegister := by
  refine ⟨fun s n hn => ?_, fun s n v hn => ?_, fun s a hlo hhi hbad => ?_, fun s a hout => ?_⟩
  · exact busAccess_of_decode (inRegion_register _ n none hn) (decodeAccess_encodeAccess _ (.read n))
  · exact busAccess_of_decode (inRegion_register _ n (some v) hn) (decodeAccess_encodeAccess _ (.write n v))
  · have halign : ¬ a.aligned s.params.regBase = true := by
      rw [aligned_eq_true]
      omega
    exact busAccess_of_no_transaction ((inRegion_eq_true _ a).mpr ⟨hlo, hhi⟩) (decodeAccess_of_not_aligned halign)
  · refine busAccess_of_outside ?_
    rw [inRegion_eq_true]
    omega

/-! ## Every transaction completes where the invariant holds (R72, R208, R243) -/

/-- BITTEST reaches a byte of the instance, which fits BITMEM (R50 item 1). -/
theorem execBitTest_completes {s : State} (hi : s.Inv) : ∃ t, execBitTest s = .next t := by
  unfold execBitTest
  split_ifs with hv hr
  · exact ⟨_, raise_eq _ s⟩
  · exact ⟨_, raise_eq _ s⟩
  · obtain ⟨_, hfit⟩ := hi.instance_fits (by simpa using hv)
    have hlt := byteOffset_lt_ceil8 s.bitCount s.bitIndex.toNat (by simpa [BitVec.le_def] using hr)
    rw [bitTest_of_lt s _ (by omega)]
    exact ⟨_, rfl⟩

/-- The rounds of CONTAINS run on an instance, which fits BITMEM (R50 item 1). -/
theorem execContains_completes {s : State} (hi : s.Inv) : ∃ t, execContains s = .next t := by
  unfold execContains
  split_ifs with hd hk
  · exact ⟨_, complete_eq _⟩
  · exact ⟨_, raise_eq _ s⟩
  · obtain ⟨hv, hn, _⟩ := (isDegenerate_eq_false s).mp (by simpa using hd)
    obtain ⟨_, hfit⟩ := hi.instance_fits hv
    exact runRounds_completes _ _ _ _ _ hn hfit

theorem execLoadEnd_completes (s : State) : ∃ t, execLoadEnd s = .next t := by
  unfold execLoadEnd
  split <;> exact ⟨_, rfl⟩

theorem exists_next_ite {c : Prop} [Decidable c] {a b : Answer} (ha : ∃ t, a = .next t) (hb : ∃ t, b = .next t) :
    ∃ t, (if c then a else b) = .next t := by
  split_ifs
  · exact ha
  · exact hb

/-- Only BITTEST and CONTAINS need the invariant; the other commands answer a next state on every path. -/
theorem exec_completes (i : Instr) {s : State} (hi : s.Inv) : ∃ t, exec i s = .next t := by
  cases i with
  | load => exact exists_next_ite ⟨_, rfl⟩ ⟨_, rfl⟩
  | loadEnd => exact execLoadEnd_completes s
  | loadAbort => exact exists_next_ite ⟨_, rfl⟩ ⟨_, rfl⟩
  | sealInstance => exact exists_next_ite (exists_next_ite ⟨_, rfl⟩ ⟨_, rfl⟩) ⟨_, rfl⟩
  | release => exact exists_next_ite ⟨_, rfl⟩ ⟨_, rfl⟩
  | hash => exact exists_next_ite ⟨_, rfl⟩ ⟨_, rfl⟩
  | hashPair => exact exists_next_ite ⟨_, rfl⟩ ⟨_, rfl⟩
  | index => exact exists_next_ite ⟨_, rfl⟩ ⟨_, rfl⟩
  | bitTest => exact execBitTest_completes hi
  | contains => exact execContains_completes hi

theorem command_completes (w : U32) {s : State} (hi : s.Inv) : ∃ t, command w s = .next t := by
  cases hd : decode w with
  | some i => rw [command_of_decode hd]; exact exec_completes i hi
  | none => exact ⟨_, command_of_illegal hd s⟩

theorem streamByte_of_header (d : Byte) {s : State} (hp : s.phase = .ldHeader) : streamByte d s = headerByte d s := by
  simp only [streamByte, hp]

theorem streamByte_of_payload (d : Byte) {s : State} (hp : s.phase = .ldPayload) :
    streamByte d s = payloadByte d s := by
  simp only [streamByte, hp]

/-- In a session LDCNT stays inside `LD_HDR` and inside the payload's end (R50 items 2 and 3). -/
theorem streamByte_completes (d : Byte) {s : State} (hi : s.Inv) : ∃ t, streamByte d s = .next t := by
  cases hp : s.phase with
  | idle => exact ⟨s, by simp only [streamByte, hp]⟩
  | ldHeader =>
    obtain ⟨hlt, _⟩ := hi.header_phase hp
    exact ⟨_, (streamByte_of_header d hp).trans (if_pos hlt)⟩
  | ldPayload =>
    obtain ⟨_, hfit, h20, hlt⟩ := hi.payload_phase hp
    have hin : 20 ≤ s.ldCnt.toNat ∧ s.ldCnt.toNat - 20 < s.params.bitmemCap := by omega
    exact ⟨_, (streamByte_of_payload d hp).trans (if_pos hin)⟩

theorem writeReg_completes (r : Reg) (v : U64) {s : State} (hi : s.Inv) : ∃ t, writeReg r v s = .next t := by
  cases r with
  | cmd => exact command_completes _ hi
  | stream => exact streamByte_completes _ hi
  | _ => exact ⟨_, rfl⟩

theorem transact_completes (tr : Transaction) {s : State} (hi : s.Inv) : ∃ t, transact tr s = .next t := by
  cases tr with
  | read n => exact ⟨_, rfl⟩
  | write n v =>
    show ∃ t, hostWrite n v s = .next t
    unfold hostWrite
    split
    · exact writeReg_completes _ v hi
    · exact ⟨_, rfl⟩

/-- An access carried by the platform is a transaction or is refused. -/
theorem busAccess_refused_or_next (a : BusAccess) {s : State} (hi : s.Inv) :
    (∃ r, busAccess a s = .refused r) ∨ ∃ t, busAccess a s = .next t := by
  by_cases hr : a.inRegion s.params.regBase = true
  · cases hd : decodeAccess s.params.regBase a with
    | some tr => rw [busAccess_of_decode hr hd]; exact .inr (transact_completes tr hi)
    | none => exact .inl ⟨_, busAccess_of_no_transaction hr hd⟩
  · exact .inl ⟨_, busAccess_of_outside hr⟩

theorem handle_ne_fault (e : HostEvent) (f : Fault) {s : State} (hi : s.Inv) : handle e s ≠ .fault f := by
  cases e with
  | transaction tr =>
    obtain ⟨t, ht⟩ := transact_completes tr hi
    simp [handle, ht]
  | bus a => rcases busAccess_refused_or_next a hi with ⟨r, h⟩ | ⟨t, h⟩ <;> simp [handle, h]
  | reset => simp [handle]

theorem step_nil {s : State} (hs : s.inbox = []) : step s = .next s := by
  simp only [step, handleNext, hs]

/-- Settles O58: the invariant does not depend on the inbox, so it holds of the state the first event is handled on. -/
theorem transactionsCompleteWithoutFault : Obligations.TransactionsCompleteWithoutFault := by
  have htaken : ∀ (s : State) (rest : List HostEvent), s.Inv → ({ s with inbox := rest } : State).Inv :=
    fun s rest hi => (sameLoadSide_inbox s rest).inv hi
  refine ⟨fun s f hi => ?_, fun s tr rest hi hs => ?_, fun s i hi => exec_completes i hi⟩
  · cases hs : s.inbox with
    | nil => simp [step_nil hs]
    | cons e rest => rw [step_cons hs]; exact handle_ne_fault e f (htaken s rest hi)
  · rw [step_cons hs]
    exact transact_completes tr (htaken s rest hi)

/-- Settles O6. -/
theorem stepHandlesOneEvent : Obligations.StepHandlesOneEvent :=
  ⟨fun _ => step_nil, fun _ _ _ => step_cons⟩

/-! ## Absent bytes (R61, R46, log entry 7) -/

theorem execBitTest_of_absent {s : State} (hv : s.valid = true) (hlt : s.bitIndex.toNat < s.bitCount.toNat)
    (habs : s.params.bitmemCap ≤ s.bitIndex.toNat / 8) : execBitTest s = .fault .bitmemOffsetAbsent := by
  have hr : ¬ s.bitCount ≤ s.bitIndex := by rw [BitVec.le_def]; omega
  simp only [execBitTest, hv, hr, bitTest_of_not_lt s s.bitIndex (by omega), if_false, Bool.true_eq_false]

/-- The bit that round `i` of CONTAINS tests, over the naturals (R133, R153). -/
theorem toNat_reduceIndex_round (s : State) (i : Nat) :
    (reduceIndex (combine (baseHash1 (key s)) (baseHash2 (key s)) (BitVec.ofNat 32 i)) s.bitCount).toNat =
      Slice0.roundIndex s i := by
  rw [toNat_reduceIndex, Slice0.roundIndex, Slice0.roundCombined, baseHash2, baseHash1, combine, abs64, seed1]

/-- A round that would test an absent byte stops the loop. -/
theorem runRounds_of_absent (h1 h2 : U32) (left i : Nat) (s : State)
    (habs : s.params.bitmemCap ≤ (reduceIndex (combine h1 h2 (BitVec.ofNat 32 i)) s.bitCount).toNat / 8) :
    runRounds h1 h2 (left + 1) i s = .fault .bitmemOffsetAbsent := by
  rw [runRounds]
  simp only [bitTest_of_not_lt s _ (Nat.not_lt.mpr habs)]

theorem execContains_of_rounds {s : State} (hd : s.isDegenerate = false) (hk : keyTooLong s = false) :
    execContains s = runRounds (baseHash1 (key s)) (baseHash2 (key s)) s.hashRounds.toNat 0
      { s with h1 := baseHash1 (key s), h2 := baseHash2 (key s) } := by
  simp only [execContains, hd, hk, Bool.false_eq_true, if_false]

theorem execContains_of_absent {s : State} (hd : s.isDegenerate = false) (hk : keyTooLong s = false)
    (habs : s.params.bitmemCap ≤ Slice0.roundIndex s 0 / 8) : execContains s = .fault .bitmemOffsetAbsent := by
  obtain ⟨_, _, hrounds⟩ := (isDegenerate_eq_false s).mp hd
  obtain ⟨left, hleft⟩ : ∃ left, s.hashRounds.toNat = left + 1 :=
    Nat.exists_eq_succ_of_ne_zero fun h0 => hrounds (BitVec.eq_of_toNat_eq (by simpa using h0))
  rw [execContains_of_rounds hd hk, hleft]
  rw [← toNat_reduceIndex_round] at habs
  exact runRounds_of_absent _ _ left 0 _ habs

theorem streamByte_of_absent_header (d : Byte) {s : State} (hp : s.phase = .ldHeader) (hc : 20 ≤ s.ldCnt.toNat) :
    streamByte d s = .fault .ldHdrIndexAbsent :=
  (streamByte_of_header d hp).trans (if_neg (Nat.not_lt.mpr hc))

theorem streamByte_of_absent_payload (d : Byte) {s : State} (hp : s.phase = .ldPayload)
    (hc : s.ldCnt.toNat < 20 ∨ s.params.bitmemCap ≤ s.ldCnt.toNat - 20) :
    streamByte d s = .fault .bitmemOffsetAbsent := by
  rw [streamByte_of_payload d hp]
  have hout : ¬ (20 ≤ s.ldCnt.toNat ∧ s.ldCnt.toNat - 20 < s.params.bitmemCap) := by omega
  exact if_neg hout

/-- Settles O59: the earlier checks of each of the four pass, and the byte that is then reached does not exist. -/
theorem absentBytesFault : Obligations.AbsentBytesFault := by
  refine ⟨fun s => execBitTest_of_absent, fun s hv hn hr hk habs => ?_, fun s v hp hc => ?_, fun s v hp hc => ?_⟩
  · exact execContains_of_absent ((isDegenerate_eq_false s).mpr ⟨hv, hn, hr⟩) ((keyTooLong_eq_false s).mpr hk) habs
  · exact (hostWrite_reg .stream v s).trans (streamByte_of_absent_header _ hp hc)
  · exact (hostWrite_reg .stream v s).trans (streamByte_of_absent_payload _ hp hc)

end Sys2Proof.Machine
end

section
/-! The encoding family: command words and the decoder (R90 to R94). -/

namespace Sys2Proof.Machine

/-- The model's law of each command, as one statement over all of them. -/
theorem roundTrip (i : Instr) : Laws.RoundTrip.Statement i := by
  cases i with
  | load => exact Laws.RoundTrip.load
  | loadEnd => exact Laws.RoundTrip.loadEnd
  | loadAbort => exact Laws.RoundTrip.loadAbort
  | sealInstance => exact Laws.RoundTrip.sealInstance
  | release => exact Laws.RoundTrip.release
  | hash => exact Laws.RoundTrip.hash
  | hashPair => exact Laws.RoundTrip.hashPair
  | index => exact Laws.RoundTrip.index
  | bitTest => exact Laws.RoundTrip.bitTest
  | contains => exact Laws.RoundTrip.contains

theorem decode_encode (i : Instr) : decode (encode i) = some i := by
  obtain ⟨_, _, h⟩ := roundTrip i
  exact h

/-- The zero field is the quotient of the word by 256 (R90). -/
theorem cmdZeroField_eq_zero_iff (w : U32) : cmdZeroField w = 0 ↔ w.toNat / 256 = 0 := by
  have hw := w.isLt
  have hzero : (0 : BitVec 24).toNat = 0 := rfl
  rw [← BitVec.toNat_inj, cmdZeroField, BitVec.extractLsb'_toNat, Nat.shiftRight_eq_div_pow, hzero]
  omega

/-- The opcode is the remainder of the word by 256 (R90). -/
theorem toNat_cmdOpcode (w : U32) : (cmdOpcode w).toNat = w.toNat % 256 := by
  simp [cmdOpcode]

/-- The opcode map is the inverse of the command words (R92). -/
theorem opcodeInstr_eq_some_iff (opcode : BitVec 8) (i : Instr) :
    opcodeInstr opcode = some i ↔ opcode.toNat = (encode i).toNat := by
  constructor
  · intro h
    unfold opcodeInstr at h
    split at h <;> simp only [Option.some.injEq, reduceCtorEq] at h <;> subst h <;> assumption
  · intro h
    unfold opcodeInstr
    rw [h]
    cases i <;> rfl

/-- The decoder by the two fields of the word (R90, R93). -/
theorem decode_eq_some_iff (w : U32) (i : Instr) :
    decode w = some i ↔ w.toNat / 256 = 0 ∧ w.toNat % 256 = (encode i).toNat := by
  rw [← cmdZeroField_eq_zero_iff, ← toNat_cmdOpcode, ← opcodeInstr_eq_some_iff, decode]
  split_ifs with h
  · exact iff_of_false (by simp) (fun hfields => h hfields.1)
  · simp [not_not.mp h]

/-- Settles O1: a word with a zero field of 0 is its own opcode. -/
theorem wordDecodesExactlyToItsCommand : Obligations.WordDecodesExactlyToItsCommand := by
  intro w i
  constructor
  · intro h
    obtain ⟨hzero, hopcode⟩ := (decode_eq_some_iff w i).mp h
    exact BitVec.eq_of_toNat_eq (by omega)
  · rintro rfl
    exact decode_encode i

/-- The opcodes that R94 excepts are those of the commands. -/
theorem mem_opcodes_iff (n : Nat) :
    n ∈ [0x01, 0x02, 0x03, 0x04, 0x05, 0x10, 0x11, 0x12, 0x13, 0x14] ↔ ∃ i, n = (encode i).toNat := by
  constructor
  · intro h
    simp only [List.mem_cons, List.not_mem_nil, or_false] at h
    rcases h with rfl | rfl | rfl | rfl | rfl | rfl | rfl | rfl | rfl | rfl
    exacts [⟨.load, rfl⟩, ⟨.loadEnd, rfl⟩, ⟨.loadAbort, rfl⟩, ⟨.sealInstance, rfl⟩, ⟨.release, rfl⟩, ⟨.hash, rfl⟩,
      ⟨.hashPair, rfl⟩, ⟨.index, rfl⟩, ⟨.bitTest, rfl⟩, ⟨.contains, rfl⟩]
  · rintro ⟨i, rfl⟩
    cases i <;> decide

/-- A word is illegal when no command has its two fields (R94). -/
theorem decode_eq_none_iff (w : U32) : decode w = none ↔ w.toNat / 256 ≠ 0 ∨
    w.toNat % 256 ∉ [0x01, 0x02, 0x03, 0x04, 0x05, 0x10, 0x11, 0x12, 0x13, 0x14] := by
  rw [mem_opcodes_iff, Option.eq_none_iff_forall_ne_some]
  simp only [ne_eq, decode_eq_some_iff, not_exists, not_and, imp_iff_not_or, forall_or_left]

/-- Settles O3. -/
theorem illegalWordSetsOnlyErr : Obligations.IllegalWordSetsOnlyErr := by
  refine ⟨decode_eq_none_iff, fun s rest v hs hv => ?_, rfl⟩
  rw [step_cmdWrite hs, command_of_illegal ((decode_eq_none_iff _).mpr hv)]
  rfl

/-- Settles O2. -/
theorem tenWordsDecode : Obligations.TenWordsDecode :=
  ⟨decode_encode .load, decode_encode .loadEnd, decode_encode .loadAbort, decode_encode .sealInstance,
    decode_encode .release, decode_encode .hash, decode_encode .hashPair, decode_encode .index, decode_encode .bitTest,
    decode_encode .contains⟩

end Sys2Proof.Machine
end

section
/-! The encoding family: a file from its first byte to its last, and one that ends too early (R97, R171 to R178,
R182). -/

namespace Sys2Proof.Machine

/-! ## The 20 header bytes of a file (R97) -/

@[simp] theorem length_bigEndian (count value : Nat) : (Slice0.bigEndian count value).length = count := by
  simp [Slice0.bigEndian]

theorem getD_bigEndian {count k : Nat} (value : Nat) (hk : k < count) :
    (Slice0.bigEndian count value).getD k 0 = BitVec.ofNat 8 (value / 2 ^ (8 * (count - 1 - k))) := by
  simp [Slice0.bigEndian, hk]

section Header
variable (e : U64) (h : U32) (n : U64)

@[simp] theorem length_headerBytes : (Slice0.headerBytes e h n).length = 20 := by
  simp [Slice0.headerBytes]

theorem headerBytes_getD_entries {k : Nat} (hk : k < 8) :
    (Slice0.headerBytes e h n).getD k 0 = BitVec.ofNat 8 (e.toNat / 2 ^ (8 * (7 - k))) := by
  rw [Slice0.headerBytes, List.append_assoc, List.getD_append _ _ _ _ (by simpa using hk), getD_bigEndian _ hk]

theorem headerBytes_getD_hashRounds {k : Nat} (hk : k < 4) :
    (Slice0.headerBytes e h n).getD (8 + k) 0 = BitVec.ofNat 8 (h.toNat / 2 ^ (8 * (3 - k))) := by
  rw [Slice0.headerBytes, List.getD_append _ _ _ _ (by simp; omega), List.getD_append_right _ _ _ _ (by simp),
    length_bigEndian, Nat.add_sub_cancel_left, getD_bigEndian _ hk]

theorem headerBytes_getD_bitCount {k : Nat} (hk : k < 8) :
    (Slice0.headerBytes e h n).getD (12 + k) 0 = BitVec.ofNat 8 (n.toNat / 2 ^ (8 * (7 - k))) := by
  rw [Slice0.headerBytes, List.getD_append_right _ _ _ _ (by simp), List.length_append, length_bigEndian,
    length_bigEndian, Nat.add_sub_cancel_left, getD_bigEndian _ hk]

/-- The fields packed from the header bytes are the fields that were written as bytes (R13, R97, R173). -/
theorem headerFields_of_headerBytes (d : Nat → Byte) (hd : ∀ k < 20, d k = (Slice0.headerBytes e h n).getD k 0) :
    headerEntries d = e ∧ headerHashRounds d = h ∧ headerBitCount d = n := by
  refine ⟨be64_bytes e d fun k hk => ?_, be32_bytes h (fun k => d (8 + k)) fun k hk => ?_,
    be64_bytes n (fun k => d (12 + k)) fun k hk => ?_⟩
  · rw [hd k (by omega), headerBytes_getD_entries e h n hk]
  · rw [hd (8 + k) (by omega), headerBytes_getD_hashRounds e h n hk]
  · rw [hd (12 + k) (by omega), headerBytes_getD_bitCount e h n hk]

end Header

/-! ## One STREAM byte and LOADEND, where a file brings them -/

/-- The 20th header byte completes the header (R172, R173). -/
theorem streamByte_twentieth (b : Byte) {s : State} (hp : s.phase = .ldHeader) (hc : s.ldCnt.toNat = 19) :
    streamByte b s = .next (headerComplete (acceptHeaderByte b s)) := by
  have h20 : s.ldCnt + 1 = 20 := BitVec.eq_of_toNat_eq (by simp [hc])
  rw [streamByte_of_header b hp, headerByte, if_pos (by omega)]
  exact congrArg Host.Outcome.next (if_pos h20)

/-- A complete header that describes an array BITMEM can hold opens the payload (R173, R174). -/
theorem headerComplete_of_fields {s : State} {e : U64} {h : U32} {n : U64}
    (hf : headerEntries (ldHdrByte s) = e ∧ headerHashRounds (ldHdrByte s) = h ∧ headerBitCount (ldHdrByte s) = n)
    (hn : n ≠ 0) (hfit : ceil8 n ≤ s.params.bitmemCap) :
    headerComplete s = { s with entries := e, hashRounds := h, bitCount := n, phase := .ldPayload } := by
  obtain ⟨he, hh, hb⟩ := hf
  rw [headerComplete, he, hh, hb]
  rcases headerChecks_withHeader s e h n with ⟨h0, _⟩ | ⟨_, hbig, _⟩ | ⟨_, _, hok⟩
  · exact absurd h0 hn
  · omega
  · rw [hok]
    rfl

/-- The payload byte that the count of R175 makes the last completes the load. -/
theorem streamByte_last (b : Byte) {s : State} (hp : s.phase = .ldPayload) (h20 : 20 ≤ s.ldCnt.toNat)
    (hfit : ceil8 s.bitCount ≤ s.params.bitmemCap) (hc : s.ldCnt.toNat + 1 = 20 + ceil8 s.bitCount) :
    streamByte b s = .next (loadComplete (acceptPayloadByte b s)) := by
  have hle := ceil8_le s.bitCount
  have hlast : (s.ldCnt + 1).toNat = 20 + ceil8 s.bitCount := by rw [toNat_add_one _ (by omega), hc]
  rw [streamByte_of_payload b hp, payloadByte, if_pos (by omega)]
  exact congrArg Host.Outcome.next (if_pos hlast)

/-- The state in which LOAD leaves an Open block (R171). -/
def opened (s : State) : State :=
  { s with entries := 0, hashRounds := 0, bitCount := 0, ldCnt := 0, ldstat := .none, phase := .ldHeader, err := .ok }

theorem handle_load {s : State} (ho : s.isOpen = true) : handle (Slice0.wr 0 1) s = .next (opened s) :=
  if_pos ho

/-- LOADEND in a session fails it, with the code of its phase (R177). -/
theorem handle_loadEnd_of_session {s : State} (hp : s.phase ≠ .idle) : handle (Slice0.wr 0 2) s =
    .next ((loadFail (if s.phase = .ldHeader then .hdrShort else .payloadShort) s).withErr .ok) := by
  show execLoadEnd s = _
  cases hph : s.phase with
  | idle => exact absurd hph hp
  | ldHeader | ldPayload => simp [execLoadEnd, hph]

/-! ## Runs of a file's bytes, cut where the load changes its phase -/

@[simp] theorem length_streamOf (bs : List Byte) : (Slice0.streamOf bs).length = bs.length := by
  simp [Slice0.streamOf]

@[simp] theorem streamOf_append (as bs : List Byte) :
    Slice0.streamOf (as ++ bs) = Slice0.streamOf as ++ Slice0.streamOf bs := by
  simp [Slice0.streamOf]

/-- A run that begins with LOAD on an Open block. -/
theorem runHost_load (es : List HostEvent) {s : State} (ho : s.isOpen = true) :
    Slice0.runHost (Slice0.wr 0 1 :: es) s =
      Host.Core.run Sys2Proof.core es.length (opened { s with inbox := es ++ s.inbox }) :=
  core_run_events _ es s.inbox _ _ rfl (handle_load ho)

/-- A run of bytes and one byte more, from what the bytes do and what the last one does. -/
theorem run_stream_snoc {bs : List Byte} {b : Byte} {rest : List HostEvent} {s u t : State}
    (hrun : Host.Core.run Sys2Proof.core bs.length s = .next u) (hu : u.inbox = streamWrite b :: rest)
    (hlast : streamByte b { u with inbox := rest } = .next t) :
    Host.Core.run Sys2Proof.core (bs ++ [b]).length s = .next t := by
  have hstep : step u = .next t := by rw [step_cons hu, handle_streamWrite, hlast]
  rw [List.length_append, core_run_add _ _ _ _ hrun, List.length_singleton, core_run_succ 0 _ _ hstep, core_run_zero]

/-- The header of a file, from the state LOAD leaves: the fields are written and the payload is open (R172 to R174). -/
theorem run_header (e : U64) (h : U32) (n : U64) (rest : List HostEvent) (s : State) (hp : s.phase = .ldHeader)
    (hc : s.ldCnt = 0) (hn : n ≠ 0) (hfit : ceil8 n ≤ s.params.bitmemCap)
    (hs : s.inbox = Slice0.streamOf (Slice0.headerBytes e h n) ++ rest) :
    ∃ t : State, Host.Core.run Sys2Proof.core (Slice0.headerBytes e h n).length s = .next t ∧
      t = { s with ldHdr := t.ldHdr, ldCnt := 20, entries := e, hashRounds := h, bitCount := n, phase := .ldPayload,
                   inbox := rest } := by
  have hfields := headerFields_of_headerBytes e h n
  have hlen := length_headerBytes e h n
  generalize Slice0.headerBytes e h n = header at hs hfields hlen ⊢
  obtain rfl | ⟨bs, b, rfl⟩ := header.eq_nil_or_concat'
  · simp at hlen
  have hbs : bs.length = 19 := by simpa using hlen
  have hzero : s.ldCnt.toNat = 0 := by rw [hc]; rfl
  obtain ⟨u, hrun, hframe, hcnt, hbytes⟩ := run_header_bytes bs (streamWrite b :: rest) s hp (by omega)
    (by rw [hs, streamOf_append, List.append_assoc]; rfl)
  have hcnt19 : u.ldCnt.toNat = 19 := by omega
  have hup : u.phase = .ldHeader := by rw [hframe]; exact hp
  have hstored : ∀ k < 20, ldHdrByte (acceptHeaderByte b { u with inbox := rest }) k = (bs ++ [b]).getD k 0 := by
    intro k hk
    rw [ldHdrByte_acceptHeaderByte]
    rcases Nat.lt_or_ge k 19 with hlt | hge
    · rw [if_neg (show k ≠ u.ldCnt.toNat by omega), List.getD_append _ _ _ _ (by omega)]
      exact (hbytes k).trans (by rw [if_pos (by omega), hzero, Nat.sub_zero])
    · rw [if_pos (show k = u.ldCnt.toNat by omega), show k = bs.length by omega]
      simp
  have hlast := streamByte_twentieth b (s := { u with inbox := rest }) hup hcnt19
  rw [headerComplete_of_fields (hfields _ hstored) hn (by rw [hframe]; exact hfit)] at hlast
  refine ⟨_, run_stream_snoc hrun (by rw [hframe]) hlast, ?_⟩
  have h20 : u.ldCnt + 1 = 20 := BitVec.eq_of_toNat_eq (by simp [hcnt19])
  rw [← h20, hframe]
  rfl

/-- The whole payload of a file: its bytes stand in BITMEM and the instance is held (R68, R172, R175). -/
theorem run_payload (payload : List Byte) (rest : List HostEvent) (s : State) (hp : s.phase = .ldPayload)
    (hc : s.ldCnt = 20) (hn : s.bitCount ≠ 0) (hfit : ceil8 s.bitCount ≤ s.params.bitmemCap)
    (hlen : payload.length = ceil8 s.bitCount) (hs : s.inbox = Slice0.streamOf payload ++ rest) :
    ∃ t : State, Host.Core.run Sys2Proof.core payload.length s = .next t ∧
      t = { s with bitmem := t.bitmem, ldCnt := t.ldCnt, phase := .idle, valid := true, ldstat := .ok, inbox := rest } ∧
      t.ldCnt.toNat = 20 + ceil8 s.bitCount ∧ ∀ k < payload.length, bitmemByte t k = payload.getD k 0 := by
  obtain rfl | ⟨bs, b, rfl⟩ := payload.eq_nil_or_concat'
  · exact absurd hlen (ceil8_pos _ hn).ne
  have hbs : bs.length + 1 = ceil8 s.bitCount := by simpa using hlen
  have htwenty : s.ldCnt.toNat = 20 := by rw [hc]; rfl
  obtain ⟨u, hrun, hframe, hcnt, hbytes⟩ := run_payload_bytes bs (streamWrite b :: rest) s hp (by omega) hfit (by omega)
    (by rw [hs, streamOf_append, List.append_assoc]; rfl)
  have hle := ceil8_le s.bitCount
  have hlast := streamByte_last b (s := { u with inbox := rest }) (by rw [hframe]; exact hp)
    (show 20 ≤ u.ldCnt.toNat by omega) (by rw [hframe]; exact hfit)
    (by rw [hframe]; show u.ldCnt.toNat + 1 = 20 + ceil8 s.bitCount; omega)
  refine ⟨_, run_stream_snoc hrun (by rw [hframe]) hlast, ?_, ?_, fun k hk => ?_⟩
  · rw [hframe]
    rfl
  · show (u.ldCnt + 1).toNat = _
    rw [toNat_add_one _ (by omega)]
    omega
  · refine (bitmemByte_acceptPayloadByte b { u with inbox := rest } k).trans ?_
    rw [List.length_append, List.length_singleton] at hk
    rcases Nat.lt_or_ge k bs.length with hlt | hge
    · rw [if_neg (show k ≠ u.ldCnt.toNat - 20 by omega), List.getD_append _ _ _ _ hlt]
      exact (hbytes k).trans (by rw [if_pos (by omega), htwenty, Nat.sub_self, Nat.sub_zero])
    · rw [if_pos (show k = u.ldCnt.toNat - 20 by omega), show k = bs.length by omega]
      simp

/-- A whole file on an Open block: it holds the instance the file describes, and nothing else changes but the header
buffer (R97, R170 to R175, R182). -/
theorem run_file (e : U64) (h : U32) (n : U64) (payload trailing : List Byte) (s : State) (ho : s.isOpen = true)
    (hn : n ≠ 0) (hfit : ceil8 n ≤ s.params.bitmemCap) (hlen : payload.length = ceil8 n) :
    ∃ t : State, Slice0.runHost
        (Slice0.wr 0 1 :: Slice0.streamOf (Slice0.headerBytes e h n ++ payload ++ trailing)) s = .next t ∧
      t = { s with bitmem := t.bitmem, ldHdr := t.ldHdr, ldCnt := t.ldCnt, phase := .idle, valid := true, ldstat := .ok,
                   err := .ok, entries := e, hashRounds := h, bitCount := n } ∧
      t.ldCnt.toNat = 20 + ceil8 n ∧ ∀ k < payload.length, bitmemByte t k = payload.getD k 0 := by
  obtain ⟨es, hes⟩ : ∃ es, es = Slice0.streamOf (Slice0.headerBytes e h n ++ payload ++ trailing) := ⟨_, rfl⟩
  rw [← hes]
  have hcount : es.length = (Slice0.headerBytes e h n).length + (payload.length + trailing.length) := by
    rw [hes, length_streamOf, List.length_append, List.length_append, Nat.add_assoc]
  obtain ⟨u, hrunHeader, hu⟩ := run_header e h n (Slice0.streamOf payload ++ (Slice0.streamOf trailing ++ s.inbox))
    (opened { s with inbox := es ++ s.inbox }) rfl rfl hn hfit (by simp [opened, hes])
  obtain ⟨v, hrunPayload, hv, hcnt, hbytes⟩ := run_payload payload (Slice0.streamOf trailing ++ s.inbox) u
    (by rw [hu]) (by rw [hu]) (by rw [hu]; exact hn) (by rw [hu]; exact hfit) (by rw [hu]; exact hlen) (by rw [hu])
  have hrunTrailing := run_discarded_bytes trailing s.inbox v (by rw [hv]) (by rw [hv]; rfl)
  have hall := runHost_load es ho
  rw [hcount, core_run_add _ _ _ _ hrunHeader, core_run_add _ _ _ _ hrunPayload, hrunTrailing] at hall
  refine ⟨{ v with inbox := s.inbox }, hall, ?_, ?_, hbytes⟩
  · rw [hv, hu]
    rfl
  · rw [hu] at hcnt
    exact hcnt

/-- Settles O19. -/
theorem loadedFileBecomesTheInstance : Obligations.LoadedFileBecomesTheInstance := by
  intro s e h n payload trailing _ ho hn hfit hlen
  obtain ⟨t, hrun, hframe, hcnt, hbytes⟩ := run_file e h n payload trailing s ho hn hfit hlen
  refine ⟨t, hrun, by rw [hframe], by rw [hframe], by rw [hframe], by rw [hframe], by rw [hframe], by rw [hframe],
    by rw [hframe], hcnt, hbytes, fun r hr => ?_, by rw [hframe], by rw [hframe],
    keybufByte_congr (by rw [hframe]) (by rw [hframe]), by rw [hframe]⟩
  rw [hframe]
  simp only [List.mem_cons, List.not_mem_nil, or_false] at hr
  rcases hr with rfl | rfl | rfl | rfl | rfl | rfl | rfl | rfl | rfl | rfl <;> rfl

/-- The bytes of a file up to a cut, from the state LOAD leaves: the session runs on, in the phase of the place that was
reached (R172 to R174). -/
theorem run_cut_file (e : U64) (h : U32) (n : U64) (payload : List Byte) (cut : Nat) (rest : List HostEvent) (s : State)
    (hp : s.phase = .ldHeader) (hc : s.ldCnt = 0) (hn : n ≠ 0) (hfit : ceil8 n ≤ s.params.bitmemCap)
    (hlen : payload.length = ceil8 n) (hcut : cut < 20 + payload.length)
    (hs : s.inbox = Slice0.streamOf ((Slice0.headerBytes e h n ++ payload).take cut) ++ rest) :
    ∃ t : State, Host.Core.run Sys2Proof.core cut s = .next t ∧ t.inbox = rest ∧ t.valid = s.valid ∧
      t.phase = (if cut < 20 then .ldHeader else .ldPayload) ∧ t.ldCnt.toNat = cut := by
  have hzero : s.ldCnt.toNat = 0 := by rw [hc]; rfl
  rcases Nat.lt_or_ge cut 20 with hlt | hge
  · have hbs : ((Slice0.headerBytes e h n).take cut).length = cut := by simp; omega
    rw [List.take_append_of_le_length (by simp; omega)] at hs
    obtain ⟨t, hrun, hframe, hcnt, _⟩ := run_header_bytes _ rest s hp (by omega) hs
    rw [hbs] at hrun hcnt
    exact ⟨t, hrun, by rw [hframe], by rw [hframe], by rw [hframe, if_pos hlt]; exact hp, by omega⟩
  · obtain ⟨k, rfl⟩ := Nat.exists_eq_add_of_le hge
    have hbs : (payload.take k).length = k := by simp; omega
    rw [show 20 + k = (Slice0.headerBytes e h n).length + k by simp, List.take_length_add_append, streamOf_append,
      List.append_assoc] at hs
    obtain ⟨u, hrunHeader, hu⟩ := run_header e h n _ s hp hc hn hfit hs
    have hucnt : u.ldCnt.toNat = 20 := by rw [hu]; rfl
    obtain ⟨t, hrun, hframe, hcnt, _⟩ := run_payload_bytes (payload.take k) rest u (by rw [hu]) (by omega)
      (by rw [hu]; exact hfit) (by rw [hu]; show 20 + _ < 20 + ceil8 n; omega) (by rw [hu]; rfl)
    rw [hbs] at hrun hcnt
    rw [length_headerBytes] at hrunHeader
    exact ⟨t, (core_run_add 20 k s u hrunHeader).trans hrun, by rw [hframe], by rw [hframe, hu],
      by rw [hframe, hu, if_neg (by omega)], by omega⟩

/-- Settles O20: at the cut the session is still open, and LOADEND fails it with the code of its phase. -/
theorem truncatedFileFailsToLoad : Obligations.TruncatedFileFailsToLoad := by
  intro s e h n payload cut _ ho hn hfit hlen hcut
  obtain ⟨_, hvalid⟩ := (isOpen_eq_true s).mp ho
  obtain ⟨es, hes⟩ : ∃ es, es = Slice0.streamOf ((Slice0.headerBytes e h n ++ payload).take cut) := ⟨_, rfl⟩
  rw [← hes]
  have hcount : es.length = cut := by simp [hes]; omega
  obtain ⟨u, hrun, hinbox, huvalid, hphase, hcnt⟩ := run_cut_file e h n payload cut (Slice0.wr 0 2 :: s.inbox)
    (opened { s with inbox := es ++ [Slice0.wr 0 2] ++ s.inbox }) rfl rfl hn hfit hlen hcut (by simp [opened, hes])
  have hsession : u.phase ≠ .idle := by rw [hphase]; split_ifs <;> decide
  obtain ⟨code, hcode⟩ : ∃ code, code = if u.phase = .ldHeader then LdStat.hdrShort else .payloadShort := ⟨_, rfl⟩
  have hend : step u = .next ((loadFail code { u with inbox := s.inbox }).withErr .ok) := by
    rw [step_cons hinbox, hcode]
    exact handle_loadEnd_of_session hsession
  have hall := runHost_load (es ++ [Slice0.wr 0 2]) ho
  rw [List.length_append, hcount, core_run_add _ _ _ _ hrun, List.length_singleton, core_run_succ 0 _ _ hend,
    core_run_zero] at hall
  refine ⟨_, hall, huvalid.trans hvalid, rfl, rfl, rfl, rfl, hcnt, rfl, ?_, fun k => rfl⟩
  show code = _
  rw [hcode, hphase]
  rcases Nat.lt_or_ge cut 20 with hlt | hge
  · simp [hlt]
  · simp [Nat.not_lt.mpr hge]

end Sys2Proof.Machine
end

section
/-! The hash family: the hash unit against its pseudocode by index, and the commands HASH and HASHPAIR (R110 to R119). -/

namespace Sys2Proof.Machine

/-! ## The hash unit, by index (R117) -/

theorem drop_eq_getD_cons {data : List Byte} {k : Nat} (h : k < data.length) :
    data.drop k = data.getD k 0 :: data.drop (k + 1) := by
  rw [List.drop_eq_getElem_cons h, List.getD_eq_getElem _ _ h]

/-- The group at offset `4 * j` stands in front of the rest of the data (R113). -/
theorem drop_group {data : List Byte} {j : Nat} (h : j < data.length / 4) :
    data.drop (4 * j) = data.getD (4 * j) 0 :: data.getD (4 * j + 1) 0 :: data.getD (4 * j + 2) 0 ::
      data.getD (4 * j + 3) 0 :: data.drop (4 * (j + 1)) := by
  rw [drop_eq_getD_cons (by omega), drop_eq_getD_cons (by omega), drop_eq_getD_cons (by omega),
    drop_eq_getD_cons (by omega)]
  rfl

/-- Each group takes one step of the accumulator by index (R112). -/
theorem accAfter_succ (data : List Byte) (seed : U32) (j : Nat) :
    Slice0.accAfter data seed (j + 1) = hashGroup (Slice0.accAfter data seed j) (data.getD (4 * j) 0)
      (data.getD (4 * j + 1) 0) (data.getD (4 * j + 2) 0) (data.getD (4 * j + 3) 0) := rfl

/-- After `j` groups the hash unit stands at the accumulator by index, with the bytes from `4 * j` on to go (R113). -/
theorem seededHash_eq_hashRun_accAfter (data : List Byte) (seed : U32) {j : Nat} (h : j ≤ data.length / 4) :
    seededHash data seed = hashRun (Slice0.accAfter data seed j) (data.drop (4 * j)) := by
  induction j with
  | zero => rfl
  | succ j ih => rw [ih (by omega), drop_group (by omega), hashRun, accAfter_succ]

/-- Fewer than four bytes hold no group: the tail and the finish are left (R114, R115). -/
theorem hashRun_of_length_lt {rest : List Byte} (acc : U32) (h : rest.length < 4) :
    hashRun acc rest = hashFinish (hashTail acc rest) := by
  match rest, h with
  | [], _ | [_], _ | [_, _], _ | [_, _, _], _ => rfl

/-- The tail by its three conditions on the number of trailing bytes (R114). -/
theorem hashTail_eq_ite {rest : List Byte} (acc : U32) (h : rest.length < 4) :
    hashTail acc rest =
      let a1 := if rest.length ≥ 3 then acc ^^^ ((rest.getD 2 0).setWidth 32 <<< 16) else acc
      let a2 := if rest.length ≥ 2 then a1 ^^^ ((rest.getD 1 0).setWidth 32 <<< 8) else a1
      if rest.length ≥ 1 then (a2 ^^^ (rest.getD 0 0).setWidth 32) * hashM else a2 := by
  match rest, h with
  | [], _ | [_], _ | [_, _], _ | [_, _, _], _ => rfl

theorem getD_drop (data : List Byte) (t k : Nat) : (data.drop t).getD k 0 = data.getD (t + k) 0 := by
  simp [List.getD_eq_getElem?_getD]

/-- Settles O21: the groups by induction on their number, then the tail on the bytes they leave. -/
theorem seededHashFollowsThePseudocode : Obligations.SeededHashFollowsThePseudocode := by
  intro data seed
  have hlen : (data.drop (4 * (data.length / 4))).length = data.length % 4 := by
    rw [List.length_drop]
    omega
  have hlt : (data.drop (4 * (data.length / 4))).length < 4 := by omega
  rw [seededHash_eq_hashRun_accAfter data seed le_rfl, hashRun_of_length_lt _ hlt, hashTail_eq_ite _ hlt, hlen]
  simp only [getD_drop]
  rfl

/-! ## HASH and HASHPAIR (R118, R119) -/

theorem execHash_of_keyFits {s : State} (hk : keyTooLong s = false) :
    execHash s = complete { s with hashOut := seededHash (key s) s.seed } := by
  simp only [execHash, hk, Bool.false_eq_true, if_false]

theorem execHash_of_keyTooLong {s : State} (hk : keyTooLong s = true) : execHash s = raise .range s :=
  if_pos hk

theorem execHashPair_of_keyFits {s : State} (hk : keyTooLong s = false) :
    execHashPair s = complete { s with h1 := baseHash1 (key s), h2 := baseHash2 (key s) } := by
  simp only [execHashPair, hk, Bool.false_eq_true, if_false]

theorem execHashPair_of_keyTooLong {s : State} (hk : keyTooLong s = true) : execHashPair s = raise .range s :=
  if_pos hk

/-- `KEYLEN` 0 is the empty key (R118). -/
theorem key_of_keyLen_zero {s : State} (h : s.keyLen = 0) : key s = [] := by
  simp [key, h]

theorem seededHash_nil_42 : seededHash [] 42 = 0x10707292 := by decide

/-- Settles O22: the two branches of HASH on the length of the key. -/
theorem hashWritesHashout : Obligations.HashWritesHashout := by
  refine ⟨fun s hk => ?_, fun s hk => ?_, fun s => key_of_keyLen_zero, seededHash_nil_42, rfl, rfl⟩
  · exact execHash_of_keyFits ((keyTooLong_eq_false s).mpr hk)
  · exact execHash_of_keyTooLong ((keyTooLong_eq_true s).mpr hk)

/-- Settles O23: the two branches of HASHPAIR on the length of the key, and the examples of R119 evaluated. -/
theorem hashpairWritesBothBaseHashes : Obligations.HashpairWritesBothBaseHashes := by
  refine ⟨fun s hk => ?_, fun s hk => ?_, by decide, by decide, seededHash_nil_42, by decide, rfl⟩
  · exact execHashPair_of_keyFits ((keyTooLong_eq_false s).mpr hk)
  · exact execHashPair_of_keyTooLong ((keyTooLong_eq_true s).mpr hk)

end Sys2Proof.Machine
end

section
/-! The bit position and the bit test: the laws of `Combine`, `Abs` and the reduced index, the bit-test unit, and the
commands INDEX and BITTEST (R130 to R138). -/

namespace Sys2Proof.Machine

/-! ## The bit-position derivation (R130 to R134) -/

/-- The combination over the naturals (R130). -/
theorem toNat_combine (h1 h2 i : U32) : (combine h1 h2 i).toNat = (h1.toNat + i.toNat * h2.toNat) % 2 ^ 32 := by
  rw [combine, BitVec.toNat_add, BitVec.toNat_mul, Nat.add_mod_mod]

theorem combine_zero_round (h1 h2 : U32) : combine h1 h2 0 = h1 := by simp [combine]

theorem combine_zero_hash2 (h1 i : U32) : combine h1 0 i = h1 := by simp [combine]

theorem abs64_of_nonneg {c : U32} (h : c.toNat < 2 ^ 31) : abs64 c = c.toNat := by
  rw [abs64_cases, if_pos h]

theorem abs64_of_negative {c : U32} (h : 2 ^ 31 ≤ c.toNat) : abs64 c = 2 ^ 32 - c.toNat := by
  rw [abs64_cases, if_neg (Nat.not_lt.mpr h)]

/-- `Abs` is symmetric in the sign of the pattern; both the zero and the most negative pattern are their own negation. -/
theorem abs64_neg (c : U32) : abs64 (-c) = abs64 c := by
  have hc := c.isLt
  rw [abs64_cases, abs64_cases, BitVec.toNat_neg]
  split_ifs <;> omega

/-- The reduced index depends on the pattern through `Abs` alone (R133). -/
theorem reduceIndex_congr {c d : U32} (h : abs64 c = abs64 d) (n : U64) : reduceIndex c n = reduceIndex d n := by
  rw [reduceIndex, reduceIndex, h]

theorem reduceIndex_zero (n : U64) : reduceIndex 0 n = 0 := by
  apply BitVec.eq_of_toNat_eq
  rw [toNat_reduceIndex, show abs64 0 = 0 from rfl, Nat.zero_mod]
  rfl

theorem reduceIndex_one_bit (c : U32) : reduceIndex c 1 = 0 := by
  apply BitVec.eq_of_toNat_eq
  rw [toNat_reduceIndex]
  exact Nat.mod_one _

/-- Above the largest absolute value the reduction does nothing. -/
theorem toNat_reduceIndex_of_large (c : U32) {n : U64} (h : 2 ^ 31 < n.toNat) : (reduceIndex c n).toNat = abs64 c := by
  rw [toNat_reduceIndex]
  exact Nat.mod_eq_of_lt ((abs64_le c).trans_lt h)

/-- The index is no larger than the absolute value it is reduced from (R76). -/
theorem toNat_reduceIndex_le (c : U32) (n : U64) : (reduceIndex c n).toNat ≤ 2 ^ 31 := by
  rw [toNat_reduceIndex]
  exact (Nat.mod_le _ _).trans (abs64_le c)

/-- Settles O25: both wraps are one remainder over the naturals, and `Abs` splits at the sign bit. -/
theorem combineWrapsAndAbsWidens : Obligations.CombineWrapsAndAbsWidens :=
  ⟨toNat_combine, fun _ => ⟨abs64_of_nonneg, abs64_of_negative⟩, rfl⟩

/-- Settles O26. -/
theorem bitIndexIsReducedAndBounded : Obligations.BitIndexIsReducedAndBounded :=
  fun c n hn => ⟨toNat_reduceIndex c n, reduceIndex_lt c n hn, toNat_reduceIndex_le c n⟩

/-- Settles O27: the general rows of the table by the laws above, the rows with numbers evaluated. -/
theorem derivationCornerCases : Obligations.DerivationCornerCases :=
  ⟨combine_zero_round, combine_zero_hash2, by decide, by decide, rfl, by decide, by decide, rfl, by decide, by decide, rfl,
    rfl, reduceIndex_zero, reduceIndex_one_bit, fun c _ => toNat_reduceIndex_of_large c, abs64_neg,
    fun c => reduceIndex_congr (abs64_neg c)⟩

/-! ## INDEX (R135) -/

theorem execIndex_of_no_bits {s : State} (h : s.bitCount = 0) : execIndex s = raise .degen s :=
  if_pos h

theorem execIndex_of_bits {s : State} (h : s.bitCount ≠ 0) : execIndex s =
    complete (s.withIndex (combine s.h1 s.h2 s.round) (reduceIndex (combine s.h1 s.h2 s.round) s.bitCount)) :=
  if_neg h

/-- Settles O28: the two branches of INDEX on BITCOUNT, and the example of R135 evaluated. -/
theorem indexWritesCombinedAndBitindex : Obligations.IndexWritesCombinedAndBitindex :=
  ⟨fun _ => execIndex_of_no_bits, fun _ => execIndex_of_bits, by decide, by decide, by decide, rfl, rfl⟩

/-! ## The bit-test unit and BITTEST (R136 to R138) -/

/-- Settles O29: the mask of the unit selects the bit it names, in the byte it reads. -/
theorem bitTestReadsLeastSignificantFirst : Obligations.BitTestReadsLeastSignificantFirst :=
  bitTest_of_lt

theorem execBitTest_of_no_instance {s : State} (hv : s.valid = false) : execBitTest s = raise .state s :=
  if_pos hv

theorem execBitTest_of_past_end {s : State} (hv : s.valid = true) (hr : s.bitCount.toNat ≤ s.bitIndex.toNat) :
    execBitTest s = raise .range s := by
  have hle : s.bitCount ≤ s.bitIndex := BitVec.le_def.mpr hr
  simp only [execBitTest, hv, hle, if_true, if_false, Bool.true_eq_false]

/-- On a bit of an instance that fits BITMEM, BITTEST finds the byte and writes the bit. -/
theorem execBitTest_of_bit {s : State} (hv : s.valid = true) (hlt : s.bitIndex.toNat < s.bitCount.toNat)
    (hfit : ceil8 s.bitCount ≤ s.params.bitmemCap) : execBitTest s =
      complete (s.withResult ((bitmemByte s (s.bitIndex.toNat / 8)).getLsbD (s.bitIndex.toNat % 8)) false) := by
  have hr : ¬ s.bitCount ≤ s.bitIndex := by
    rw [BitVec.le_def]
    omega
  have hbyte := (byteOffset_lt_ceil8 s.bitCount s.bitIndex.toNat hlt).trans_le hfit
  simp only [execBitTest, hv, hr, bitTest_of_lt s s.bitIndex hbyte, if_false, Bool.true_eq_false]

/-- Of the byte `01` only bit 0 is set. -/
theorem getLsbD_one_eq_decide (b : U64) (h : b.toNat < 8) : (0x01 : Byte).getLsbD (b.toNat % 8) = decide (b = 0) := by
  have hzero : b = 0 ↔ b.toNat = 0 := BitVec.toNat_inj.symm
  rw [Nat.mod_eq_of_lt h, show (0x01 : Byte) = 1#8 from rfl, BitVec.getLsbD_one]
  simp only [hzero, Nat.zero_lt_succ, decide_true, Bool.true_and]

/-- Settles O30: the three branches of BITTEST; the example is the last of them on an instance of one byte. -/
theorem bittestWritesResult : Obligations.BittestWritesResult := by
  refine ⟨fun s => execBitTest_of_no_instance, fun s => execBitTest_of_past_end, fun s => execBitTest_of_bit,
    fun s hv hn hcap hbyte hlt => ?_, rfl, rfl, rfl⟩
  have hrun := execBitTest_of_bit hv (by rwa [hn]) (by rwa [hn])
  rw [Nat.div_eq_of_lt hlt, hbyte, getLsbD_one_eq_decide s.bitIndex hlt] at hrun
  exact hrun

end Sys2Proof.Machine
end

section
/-! The membership test: the three endings of CONTAINS, its rounds against the primitives HASHPAIR, INDEX and BITTEST,
and its inputs (R150 to R158). -/

namespace Sys2Proof.Machine

/-! ## The endings before the rounds (R151, R152) -/

theorem execContains_of_keyTooLong {s : State} (hd : s.isDegenerate = false) (hk : keyTooLong s = true) :
    execContains s = .next (s.withErr .range) := by
  simp only [execContains, hd, hk, Bool.false_eq_true, if_false, if_true, raise_eq]

/-- Settles O31. -/
theorem degenerateContainsAnswersAbsent : Obligations.DegenerateContainsAnswersAbsent :=
  fun s hd => execContains_of_degenerate ((isDegenerate_eq_true s).mpr hd)

/-- Settles O32. -/
theorem oversizedKeyEndsContains : Obligations.OversizedKeyEndsContains :=
  fun s hv hn hr hk =>
    execContains_of_keyTooLong ((isDegenerate_eq_false s).mpr ⟨hv, hn, hr⟩) ((keyTooLong_eq_true s).mpr hk)

/-! ## The rounds (R153 to R156) -/

/-- H1 and H2 written together (R119, R153). -/
def State.withBaseHashes (s : State) (a b : U32) : State := { s with h1 := a, h2 := b }

/-- CONTAINS past its two early endings: the base hashes, then the rounds. -/
theorem execContains_eq_runRounds {s : State} (hd : s.isDegenerate = false) (hk : keyTooLong s = false) :
    execContains s = runRounds (baseHash1 (key s)) (baseHash2 (key s)) s.hashRounds.toNat 0
      (s.withBaseHashes (baseHash1 (key s)) (baseHash2 (key s))) :=
  execContains_of_rounds hd hk

theorem hashRounds_toNat_ne_zero {s : State} (hd : s.isDegenerate = false) : s.hashRounds.toNat ≠ 0 := by
  obtain ⟨_, _, hr⟩ := (isDegenerate_eq_false s).mp hd
  exact fun h0 => hr (BitVec.eq_of_toNat_eq (by simpa using h0))

/-- On an instance that fits BITMEM the unit finds the bit of every round. -/
theorem bitTest_round {s : State} (hn : s.bitCount ≠ 0) (hfit : ceil8 s.bitCount ≤ s.params.bitmemCap) (i : Nat) :
    bitTest s (reduceIndex (combine (baseHash1 (key s)) (baseHash2 (key s)) (BitVec.ofNat 32 i)) s.bitCount) =
      some (Slice0.roundBit s i) := by
  have hlt := reduceIndex_lt (combine (baseHash1 (key s)) (baseHash2 (key s)) (BitVec.ofNat 32 i)) s.bitCount hn
  have hbyte := (byteOffset_lt_ceil8 s.bitCount _ hlt).trans_le hfit
  rw [bitTest_of_lt s _ hbyte, toNat_reduceIndex_round, Slice0.roundBit]

/-- Settles O33: the round loop completes on an instance that fits, and its inversion lemma gives the rounds passed. -/
theorem containsRunsTheRounds : Obligations.ContainsRunsTheRounds := by
  intro s hv hn hr hk hfit
  have hd := (isDegenerate_eq_false s).mpr ⟨hv, hn, hr⟩
  have hpos := hashRounds_toNat_ne_zero hd
  have hexec := execContains_eq_runRounds hd ((keyTooLong_eq_false s).mpr hk)
  obtain ⟨t, ht⟩ := runRounds_completes (baseHash1 (key s)) (baseHash2 (key s)) s.hashRounds.toNat 0
    (s.withBaseHashes (baseHash1 (key s)) (baseHash2 (key s))) hn hfit
  obtain ⟨passed, last, -, hle, hset, hunset, hall, rfl⟩ := (runRounds_next _ _ _ _ _ _ ht).result_trace
  simp only [Nat.zero_add] at hle hunset hall
  refine ⟨passed, last, hle, fun j hj => ?_, fun hlt => ?_, fun heq => hall heq (by omega), ?_⟩
  · exact Option.some.inj ((bitTest_round hn hfit j).symm.trans (hset j (Nat.zero_le j) hj))
  · obtain ⟨hlast, hbit⟩ := hunset hlt
    exact ⟨Option.some.inj ((bitTest_round hn hfit passed).symm.trans hbit), hlast⟩
  · refine (hexec.trans ht).trans ?_
    simp only [hpos, if_false, Nat.zero_add]
    rfl

/-! ## The primitives as host sequences (R99, R158) -/

theorem runHost_nil (s : State) : Slice0.runHost [] s = .next s := rfl

/-- A run of host events begins by handling the first, which leaves the events after it in the inbox. -/
theorem runHost_cons {e : HostEvent} {es : List HostEvent} {s t : State}
    (h : handle e { s with inbox := es ++ s.inbox } = .next { t with inbox := es ++ t.inbox }) :
    Slice0.runHost (e :: es) s = Slice0.runHost es t :=
  core_run_events e es s.inbox _ _ rfl h

/-- ROUND as the host writes it (R27). -/
def State.withRound (s : State) (i : U32) : State := { s with round := i }

/-- A run of host events that begins with a CMD write runs the command first. -/
theorem runHost_command {v : U64} {i : Instr} {es : List HostEvent} {s t : State}
    (hd : decode (v.setWidth 32) = some i)
    (h : exec i { s with inbox := es ++ s.inbox } = .next { t with inbox := es ++ t.inbox }) :
    Slice0.runHost (Slice0.wr 0 v :: es) s = Slice0.runHost es t :=
  runHost_cons ((command_of_decode hd _).trans h)

theorem runHost_contains {s t : State} (h : exec .contains s = .next t) :
    Slice0.runHost [Slice0.wr 0 0x14] s = .next t :=
  runHost_command (decode_encode .contains) h

theorem runHost_hashPair {s : State} (es : List HostEvent) (hk : keyTooLong s = false) :
    Slice0.runHost (Slice0.wr 0 0x11 :: es) s =
      Slice0.runHost es ((s.withBaseHashes (baseHash1 (key s)) (baseHash2 (key s))).withErr .ok) :=
  runHost_command (decode_encode .hashPair) (execHashPair_of_keyFits hk)

theorem runHost_writeRound (v : U64) (es : List HostEvent) (s : State) :
    Slice0.runHost (Slice0.wr 12 v :: es) s = Slice0.runHost es (s.withRound (v.setWidth 32)) :=
  runHost_cons rfl

theorem runHost_index {s : State} (es : List HostEvent) (hn : s.bitCount ≠ 0) :
    Slice0.runHost (Slice0.wr 0 0x12 :: es) s =
      Slice0.runHost es ((s.withIndex (combine s.h1 s.h2 s.round)
        (reduceIndex (combine s.h1 s.h2 s.round) s.bitCount)).withErr .ok) :=
  runHost_command (decode_encode .index) (execIndex_of_bits hn)

theorem runHost_bitTest {s : State} (es : List HostEvent) (hv : s.valid = true)
    (hlt : s.bitIndex.toNat < s.bitCount.toNat) (hfit : ceil8 s.bitCount ≤ s.params.bitmemCap) :
    Slice0.runHost (Slice0.wr 0 0x13 :: es) s =
      Slice0.runHost es ((s.withResult
        ((bitmemByte s (s.bitIndex.toNat / 8)).getLsbD (s.bitIndex.toNat % 8)) false).withErr .ok) :=
  runHost_command (decode_encode .bitTest) (execBitTest_of_bit hv hlt hfit)

/-- HASHPAIR; wr ROUND, i; INDEX; BITTEST gives the bit that round `i` of CONTAINS tests. -/
theorem runHost_primitives_of_round {s : State} (hv : s.valid = true) (hn : s.bitCount ≠ 0)
    (hk : keyTooLong s = false) (hfit : ceil8 s.bitCount ≤ s.params.bitmemCap) (i : Nat) :
    ∃ u, Slice0.runHost [Slice0.wr 0 0x11, Slice0.wr 12 (BitVec.ofNat 64 i), Slice0.wr 0 0x12, Slice0.wr 0 0x13] s =
      .next u ∧ u.err = .ok ∧ u.result = Slice0.roundBit s i := by
  rw [runHost_hashPair _ hk, runHost_writeRound, BitVec.setWidth_ofNat_of_le (by omega), runHost_index, runHost_bitTest,
    runHost_nil]
  · refine ⟨_, rfl, rfl, ?_⟩
    rw [Slice0.roundBit, ← toNat_reduceIndex_round]
    rfl
  · exact hv
  · exact reduceIndex_lt _ _ hn
  · exact hfit
  · exact hn

/-- Settles O34: CONTAINS answers present exactly if it passed all rounds, and the primitives give each round's bit. -/
theorem containsMatchesThePrimitives : Obligations.ContainsMatchesThePrimitives := by
  intro s hv hn hr hk hfit
  obtain ⟨passed, last, hle, hset, hunset, -, hexec⟩ := containsRunsTheRounds s hv hn hr hk hfit
  have hprim := runHost_primitives_of_round hv hn ((keyTooLong_eq_false s).mpr hk) hfit
  refine ⟨_, runHost_contains hexec, fun i hi => ?_, fun habsent => ?_⟩
  · obtain ⟨u, hrun, herr, hresult⟩ := hprim i
    refine ⟨u, hrun, herr, fun hpresent => ?_⟩
    have hpassed : passed = s.hashRounds.toNat := of_decide_eq_true hpresent
    rw [hresult, hset i (by omega)]
  · have hlt : passed < s.hashRounds.toNat := hle.lt_of_ne (of_decide_eq_false habsent)
    obtain ⟨u, hrun, -, hresult⟩ := hprim passed
    exact ⟨passed, hlt, u, hrun, hresult.trans (hunset hlt).1⟩

/-! ## What the membership test depends on (R158) -/

/-- A round whose bit is set hands over to the next one (R155). -/
theorem runRounds_of_set {h1 h2 : U32} {i : Nat} {s : State} (left : Nat)
    (hb : bitTest s (reduceIndex (combine h1 h2 (BitVec.ofNat 32 i)) s.bitCount) = some true) :
    runRounds h1 h2 (left + 1) i s = runRounds h1 h2 left (i + 1)
      (s.withIndex (combine h1 h2 (BitVec.ofNat 32 i)) (reduceIndex (combine h1 h2 (BitVec.ofNat 32 i)) s.bitCount)) := by
  rw [runRounds]
  simp only [hb]

/-- A round whose bit is unset ends the test (R155, R156). -/
theorem runRounds_of_unset {h1 h2 : U32} {i : Nat} {s : State} (left : Nat)
    (hb : bitTest s (reduceIndex (combine h1 h2 (BitVec.ofNat 32 i)) s.bitCount) = some false) :
    runRounds h1 h2 (left + 1) i s = complete ({ s.withIndex (combine h1 h2 (BitVec.ofNat 32 i))
      (reduceIndex (combine h1 h2 (BitVec.ofNat 32 i)) s.bitCount) with
        round := BitVec.ofNat 32 i }.withResult false false) := by
  rw [runRounds]
  simp only [hb]

theorem runRounds_keeps_hashes {h1 h2 : U32} {left i : Nat} {s t : State} (h : runRounds h1 h2 left i s = .next t) :
    t.h1 = s.h1 ∧ t.h2 = s.h2 := by
  obtain ⟨_, _, _, _, _, _, _, rfl⟩ := (runRounds_next _ _ _ _ _ _ h).result_trace
  exact ⟨rfl, rfl⟩

/-- The fields the round loop writes, taken from `t`. -/
def State.withRoundsOf (s t : State) : State :=
  { s with round := t.round, combined := t.combined, bitIndex := t.bitIndex, result := t.result, degen := t.degen,
           err := t.err }

/-- The round loop depends on the bits of the instance alone; COMBINED and BITINDEX come through only if no round runs. -/
theorem runRounds_congr {h1 h2 : U32} {left i : Nat} {s s' t : State} (h : runRounds h1 h2 left i s = .next t)
    (hp : s'.params = s.params) (hn : s'.bitCount = s.bitCount) (hb : ∀ k, bitmemByte s' k = bitmemByte s k)
    (hreg : left = 0 → s'.combined = s.combined ∧ s'.bitIndex = s.bitIndex) :
    runRounds h1 h2 left i s' = .next (s'.withRoundsOf t) := by
  induction left generalizing i s s' with
  | zero =>
    obtain ⟨hc, hi⟩ := hreg rfl
    cases h
    simp only [runRounds, complete_eq, State.withRoundsOf, State.withResult, State.withErr, hc, hi]
  | succ left ih =>
    have hbits := bitTest_congr hp hb (reduceIndex (combine h1 h2 (BitVec.ofNat 32 i)) s.bitCount)
    cases hbit : bitTest s (reduceIndex (combine h1 h2 (BitVec.ofNat 32 i)) s.bitCount) with
    | none =>
      simp only [runRounds, hbit, reduceCtorEq] at h
    | some bit =>
      rw [hbit, ← hn] at hbits
      cases bit with
      | true =>
        rw [runRounds_of_set left hbit] at h
        rw [runRounds_of_set left hbits, hn]
        exact ih h hp hn hb fun _ => ⟨rfl, rfl⟩
      | false =>
        rw [runRounds_of_unset left hbit] at h
        rw [runRounds_of_unset left hbits, hn]
        cases h
        rfl

/-- Two states agree on what CONTAINS reads: the instance, the key and its length, and the parameters (R158). -/
structure SameInputs (s s' : State) : Prop where
  params : s'.params = s.params
  valid : s'.valid = s.valid
  hashRounds : s'.hashRounds = s.hashRounds
  bitCount : s'.bitCount = s.bitCount
  keyLen : s'.keyLen = s.keyLen
  key_eq : key s' = key s
  bitmem : ∀ k, bitmemByte s' k = bitmemByte s k

theorem SameInputs.isDegenerate_eq {s s' : State} (hs : SameInputs s s') : s'.isDegenerate = s.isDegenerate := by
  simp only [State.isDegenerate, hs.valid, hs.bitCount, hs.hashRounds]

theorem SameInputs.keyTooLong_eq {s s' : State} (hs : SameInputs s s') : keyTooLong s' = keyTooLong s := by
  simp only [keyTooLong, hs.params, hs.keyLen]

/-- Two CONTAINS that reach the rounds with the same inputs leave the same trace. -/
theorem SameInputs.execContains_of_rounds {s s' t : State} (hs : SameInputs s s') (hd : s.isDegenerate = false)
    (hk : keyTooLong s = false) (h : execContains s = .next t) :
    execContains s' = .next ((s'.withBaseHashes t.h1 t.h2).withRoundsOf t) := by
  rw [execContains_eq_runRounds hd hk] at h
  obtain ⟨hh1, hh2⟩ : t.h1 = baseHash1 (key s) ∧ t.h2 = baseHash2 (key s) := runRounds_keeps_hashes h
  rw [execContains_eq_runRounds (hs.isDegenerate_eq.trans hd) (hs.keyTooLong_eq.trans hk), hs.key_eq, hs.hashRounds, hh1,
    hh2]
  exact runRounds_congr h hs.params hs.bitCount hs.bitmem fun h0 => absurd h0 (hashRounds_toNat_ne_zero hd)

/-- Settles O35: both states take the same ending, and the rounds of the one are those of the other. -/
theorem containsDependsOnItsInputsOnly : Obligations.ContainsDependsOnItsInputsOnly := by
  intro s s' t hp hv hr hn hl hkb hbm h
  have hs : SameInputs s s' := ⟨hp.symm, hv.symm, hr.symm, hn.symm, hl.symm, key_congr hl.symm fun k => (hkb k).symm,
    fun k => (hbm k).symm⟩
  change execContains s = .next t at h
  show ∃ t', execContains s' = .next t' ∧ _
  cases hd : s.isDegenerate with
  | true =>
    rw [execContains_of_degenerate hd] at h
    cases h
    have hexec := execContains_of_degenerate (hs.isDegenerate_eq.trans hd)
    exact ⟨_, hexec, rfl, fun _ => ⟨rfl, rfl, fun hrounds => by cases hrounds⟩⟩
  | false =>
    cases hk : keyTooLong s with
    | true =>
      rw [execContains_of_keyTooLong hd hk] at h
      cases h
      have hexec := execContains_of_keyTooLong (hs.isDegenerate_eq.trans hd) (hs.keyTooLong_eq.trans hk)
      exact ⟨_, hexec, rfl, fun hok => by cases hok⟩
    | false =>
      exact ⟨_, hs.execContains_of_rounds hd hk h, rfl, fun _ => ⟨rfl, rfl, fun _ => ⟨rfl, rfl, rfl, rfl, rfl⟩⟩⟩

end Sys2Proof.Machine
end

section
/-! The load family: one STREAM byte of a load session, and LOAD, LOADEND, LOADABORT, SEAL and RELEASE (R171 to
R182). -/

namespace Sys2Proof.Machine

/-! ## One STREAM byte (R172 to R175, R182) -/

theorem hostWrite_stream (v : U64) (s : State) : hostWrite 17 v s = streamByte (v.setWidth 8) s :=
  hostWrite_reg .stream v s

theorem streamByte_of_idle (d : Byte) {s : State} (hp : s.phase = .idle) : streamByte d s = .next s := by
  simp only [streamByte, hp]

/-- A payload byte that leaves the payload incomplete is stored (R172, R175). -/
theorem streamByte_payload (d : Byte) {s : State} (hp : s.phase = .ldPayload) (h20 : 20 ≤ s.ldCnt.toNat)
    (hfit : ceil8 s.bitCount ≤ s.params.bitmemCap) (hc : s.ldCnt.toNat + 1 < 20 + ceil8 s.bitCount) :
    streamByte d s = .next (acceptPayloadByte d s) := by
  have hle := ceil8_le s.bitCount
  have hmore : (s.ldCnt + 1).toNat ≠ 20 + ceil8 s.bitCount := by rw [toNat_add_one _ (by omega)]; omega
  rw [streamByte_of_payload d hp, payloadByte, if_pos (by omega)]
  exact congrArg Host.Outcome.next (if_neg hmore)

theorem headerChecks_of_no_bits {s : State} (h0 : s.bitCount = 0) : headerChecks s = loadFail .empty s :=
  if_pos h0

theorem headerChecks_of_too_large {s : State} (h0 : s.bitCount ≠ 0) (hbig : s.params.bitmemCap < ceil8 s.bitCount) :
    headerChecks s = loadFail .alloc s :=
  (if_neg h0).trans (if_pos hbig)

theorem headerChecks_of_fits {s : State} (h0 : s.bitCount ≠ 0) (hfit : ceil8 s.bitCount ≤ s.params.bitmemCap) :
    headerChecks s = { s with phase := .ldPayload } :=
  (if_neg h0).trans (if_neg (Nat.not_lt.mpr hfit))

/-- The checks never touch the load counter or the header buffer: a failed load keeps both (R178). -/
theorem headerChecks_keeps (s : State) :
    (headerChecks s).ldCnt = s.ldCnt ∧ (headerChecks s).ldHdr = s.ldHdr ∧
      (headerChecks s).resetEpoch = s.resetEpoch := by
  rcases headerChecks_cases s with ⟨_, h⟩ | ⟨_, _, h⟩ | ⟨_, _, h⟩ <;> rw [h] <;> exact ⟨rfl, rfl, rfl⟩

/-- Settles O15: the 20th byte makes LDCNT 20 and the header buffer `d`, and the three outcomes are those of the header
checks. -/
theorem headerBytesMakeTheHeader : Obligations.HeaderBytesMakeTheHeader := by
  refine ⟨fun s v hp hlt => ?_, fun s v d hp hc hd => ?_, rfl, rfl⟩
  · refine ⟨_, (hostWrite_stream v s).trans (streamByte_header _ s hp hlt), toNat_add_one _ (by omega), ?_,
      fun k hk => ?_, rfl⟩
    · rw [ldHdrByte_acceptHeaderByte, if_pos rfl]
    · rw [ldHdrByte_acceptHeaderByte, if_neg hk]
  · have h20 : s.ldCnt + 1 = 20 := BitVec.eq_of_toNat_eq (by simp [hc])
    have hstored : ldHdrByte (acceptHeaderByte (v.setWidth 8) s) = d :=
      funext fun k => by rw [ldHdrByte_acceptHeaderByte, hc, hd]
    obtain ⟨e, h, n, he, hh, hn, hcomplete⟩ := headerComplete_fields (acceptHeaderByte (v.setWidth 8) s)
    rw [hstored] at he hh hn
    have hwrite := (hostWrite_stream v s).trans (streamByte_twentieth _ hp hc)
    rw [hcomplete] at hwrite
    obtain ⟨hcnt, hhdr, hepoch⟩ := headerChecks_keeps ((acceptHeaderByte (v.setWidth 8) s).withHeader e h n)
    refine ⟨_, e, h, n, hwrite, he, hh, hn, hcnt.trans h20, fun h0 => ?_, fun h0 hbig => ?_, fun h0 hfit => ?_,
      fun k => (ldHdrByte_congr hhdr hepoch k).trans (congrFun hstored k)⟩
    · rw [headerChecks_of_no_bits h0, ← h20]
      subst h0
      rfl
    · rw [headerChecks_of_too_large h0 hbig, ← h20]
      rfl
    · rw [headerChecks_of_fits h0 hfit, ← h20]
      rfl

/-- Settles O16, by whether the byte completes the payload; either way it is stored at its offset. -/
theorem payloadBytesFillBitmem : Obligations.PayloadBytesFillBitmem := by
  intro s v hp h20 hfit hlt
  have hle := ceil8_le s.bitCount
  have hcnt : (s.ldCnt + 1).toNat = s.ldCnt.toNat + 1 := toNat_add_one _ (by omega)
  have hat : bitmemByte (acceptPayloadByte (v.setWidth 8) s) (s.ldCnt.toNat - 20) = v.setWidth 8 := by
    rw [bitmemByte_acceptPayloadByte, if_pos rfl]
  have hother : ∀ k, k ≠ s.ldCnt.toNat - 20 → bitmemByte (acceptPayloadByte (v.setWidth 8) s) k = bitmemByte s k :=
    fun k hk => by rw [bitmemByte_acceptPayloadByte, if_neg hk]
  rw [hostWrite_stream]
  rcases Nat.lt_or_ge (s.ldCnt.toNat + 1) (20 + ceil8 s.bitCount) with hmore | hdone
  · exact ⟨_, streamByte_payload _ hp h20 hfit hmore, hcnt, hat, hother, fun _ => rfl, fun hlast => by omega, rfl⟩
  · exact ⟨_, streamByte_last _ hp h20 hfit (by omega), hcnt, hat, hother, fun hmore => by omega, fun _ => rfl, rfl⟩

/-- Settles O14. -/
theorem streamIsDiscardedWhenIdle : Obligations.StreamIsDiscardedWhenIdle := by
  intro s rest v hp hs
  rw [step_cons hs]
  exact (hostWrite_stream v _).trans (streamByte_of_idle _ hp)

/-! ## LOAD, LOADEND, LOADABORT, SEAL and RELEASE (R171, R176, R177, R180, R181) -/

theorem execLoad_of_open {s : State} (ho : s.isOpen = true) : execLoad s = .next (opened s) := if_pos ho

theorem execLoad_of_not_open {s : State} (ho : s.isOpen = false) : execLoad s = raise .state s :=
  if_neg (Bool.eq_false_iff.mp ho)

/-- Settles O9; a block after reset is Open. -/
theorem loadOpensASessionOnlyWhenOpen : Obligations.LoadOpensASessionOnlyWhenOpen := by
  refine ⟨fun s hp hv => execLoad_of_open ((isOpen_eq_true s).mpr ⟨hp, hv⟩),
    fun s h => execLoad_of_not_open ((isOpen_eq_false s).mpr h), rfl, rfl, fun p t h => ?_⟩
  cases (execLoad_of_open (s := State.resetWith p) rfl).symm.trans h
  show statusOf .none .ok false false .ldHeader false = 0x00000002
  rfl

theorem execLoadEnd_of_header {s : State} (hp : s.phase = .ldHeader) :
    execLoadEnd s = complete (loadFail .hdrShort s) := by
  simp only [execLoadEnd, hp]

theorem execLoadEnd_of_payload {s : State} (hp : s.phase = .ldPayload) :
    execLoadEnd s = complete (loadFail .payloadShort s) := by
  simp only [execLoadEnd, hp]

theorem execLoadEnd_of_idle {s : State} (hp : s.phase = .idle) : execLoadEnd s = complete s := by
  simp only [execLoadEnd, hp]

/-- Settles O10, by the three phases. -/
theorem loadEndEndsTheSession : Obligations.LoadEndEndsTheSession :=
  ⟨fun _ => execLoadEnd_of_header, fun _ => execLoadEnd_of_payload, fun _ => execLoadEnd_of_idle, rfl, rfl, rfl⟩

theorem execLoadAbort_of_session {s : State} (hp : s.phase ≠ .idle) :
    execLoadAbort s = complete (loadFail .io s) := if_pos hp

theorem execLoadAbort_of_idle {s : State} (hp : s.phase = .idle) : execLoadAbort s = complete s :=
  if_neg (not_not.mpr hp)

/-- Settles O11, by whether a session runs. -/
theorem loadAbortFailsTheSession : Obligations.LoadAbortFailsTheSession :=
  ⟨fun _ => execLoadAbort_of_session, fun _ => execLoadAbort_of_idle, rfl, rfl⟩

/-- The state in which SEAL leaves an Open block whose array fits (R180). -/
def sealedFrom (s : State) : State := { s with valid := true, ldstat := .none, err := .ok }

theorem execSeal_of_not_open {s : State} (ho : s.isOpen = false) : execSeal s = raise .state s :=
  if_neg (Bool.eq_false_iff.mp ho)

theorem execSeal_of_too_large {s : State} (ho : s.isOpen = true) (hbig : s.params.bitmemCap < ceil8 s.bitCount) :
    execSeal s = raise .alloc s :=
  (if_pos ho).trans (if_pos hbig)

theorem execSeal_of_fits {s : State} (ho : s.isOpen = true) (hfit : ceil8 s.bitCount ≤ s.params.bitmemCap) :
    execSeal s = .next (sealedFrom s) :=
  (if_pos ho).trans (if_neg (Nat.not_lt.mpr hfit))

theorem Phase.code_eq_zero_iff (p : Phase) : p.code = 0 ↔ p = .idle := by cases p <;> decide

/-- STATUS 0 shows an Open block and both result flags clear (R33). -/
theorem fields_of_statusWord_zero {s : State} (h : statusWord s = 0) :
    s.phase = .idle ∧ s.valid = false ∧ s.result = false ∧ s.degen = false := by
  obtain ⟨hvalid, hresult, hdegen⟩ := statusWord_flags s
  obtain ⟨hphase, _⟩ := statusWord_codes s
  rw [h] at hvalid hresult hdegen hphase
  exact ⟨(Phase.code_eq_zero_iff _).mp hphase.symm, hvalid.symm, hresult.symm, hdegen.symm⟩

/-- Settles O12, by the two conditions of SEAL in their order; for the example, STATUS 0 shows an Open block and 8 bits
need one byte. -/
theorem sealMakesTheInstance : Obligations.SealMakesTheInstance := by
  refine ⟨fun s h => execSeal_of_not_open ((isOpen_eq_false s).mpr h),
    fun s hp hv hbig => execSeal_of_too_large ((isOpen_eq_true s).mpr ⟨hp, hv⟩) hbig,
    fun s hp hv hfit => execSeal_of_fits ((isOpen_eq_true s).mpr ⟨hp, hv⟩) hfit, fun s t hs hn hcap h => ?_,
    rfl, rfl, rfl, rfl⟩
  obtain ⟨hp, hv, hresult, hdegen⟩ := fields_of_statusWord_zero hs
  have hfit : ceil8 s.bitCount ≤ s.params.bitmemCap := by rw [hn]; exact hcap
  cases (execSeal_of_fits ((isOpen_eq_true s).mpr ⟨hp, hv⟩) hfit).symm.trans h
  show statusOf .none .ok s.degen s.result s.phase true = 0x00000001
  rw [hdegen, hresult, hp]
  rfl

/-- The state in which RELEASE leaves a block outside a session (R181). -/
def released (s : State) : State :=
  { s with valid := false, entries := 0, hashRounds := 0, bitCount := 0, ldCnt := 0, ldstat := .none, bitmem := [],
           bitmemEpoch := s.bitmemEpoch + 1, err := .ok }

theorem execRelease_of_session {s : State} (hp : s.phase ≠ .idle) : execRelease s = raise .state s := if_pos hp

theorem execRelease_of_idle {s : State} (hp : s.phase = .idle) : execRelease s = .next (released s) :=
  if_neg (not_not.mpr hp)

/-- Settles O13, by whether a session runs; an emptied BITMEM reads as the free values of its new epoch. -/
theorem releaseClearsTheInstance : Obligations.ReleaseClearsTheInstance := by
  refine ⟨fun _ => execRelease_of_session, fun _ => execRelease_of_idle, fun s t hp h => ?_, rfl⟩
  cases (execRelease_of_idle hp).symm.trans h
  exact ⟨(isOpen_eq_true _).mpr ⟨hp, rfl⟩, fun k => rfl⟩

end Sys2Proof.Machine
end

section
/-! The exception family: errors are precise, the table of errors, and the ignored accesses (R200 to R209). -/

namespace Sys2Proof.Machine

/-! ## Errors are precise (R206) -/

theorem eq_with_err_of_refused {s t : State} (h : ∃ e, t = s.withErr e) : t = { s with err := t.err } := by
  obtain ⟨e, rfl⟩ := h
  rfl

/-- A CMD write that answers a next state either sets ERR alone or ends with `E_OK` (R38, R94, R206). -/
theorem command_refused_or_ok (w : U32) (s t : State) (h : command w s = .next t) :
    (∃ e, t = s.withErr e) ∨ t.err = .ok := by
  rcases command_next w s t h with ⟨_, ht⟩ | ⟨i, _, hi⟩
  · exact .inl ⟨_, ht⟩
  · exact exec_refused_or_ok i s t hi

theorem hostWrite_cmd (v : U64) (s : State) : hostWrite 0 v s = command (v.setWidth 32) s :=
  hostWrite_reg .cmd v s

/-- Settles O38: whatever does not end with `E_OK` was refused, and a refusal sets ERR alone. -/
theorem errorsArePrecise : Obligations.ErrorsArePrecise := by
  refine ⟨fun i s t h herr => ?_, fun v s t h herr => ?_⟩
  · exact eq_with_err_of_refused ((exec_refused_or_ok i s t h).resolve_right herr)
  · rw [hostWrite_cmd] at h
    exact eq_with_err_of_refused ((command_refused_or_ok _ s t h).resolve_right herr)

/-! ## The table of errors (R202) -/

theorem isOpen_eq_false_iff_not (s : State) : s.isOpen = false ↔ ¬ (s.phase = .idle ∧ s.valid = false) := by
  rw [← isOpen_eq_true, Bool.not_eq_true]

/-- Settles O39: the cases of each command's inversion lemma are the branches of its row. -/
theorem errTable : Obligations.ErrTable := by
  intro i s t h
  cases i with
  | load =>
    rcases execLoad_cases s t h with ⟨ho, rfl⟩ | ⟨ho, rfl⟩
    · exact (if_pos ((isOpen_eq_true s).mp ho)).symm
    · exact (if_neg ((isOpen_eq_false_iff_not s).mp ho)).symm
  | loadEnd => rcases execLoadEnd_cases s t h with ⟨_, rfl⟩ | ⟨_, rfl⟩ | ⟨_, rfl⟩ <;> rfl
  | loadAbort => rcases execLoadAbort_cases s t h with ⟨_, rfl⟩ | ⟨_, rfl⟩ <;> rfl
  | sealInstance =>
    rcases execSeal_cases s t h with ⟨ho, hfit, rfl⟩ | ⟨ho, hbig, rfl⟩ | ⟨ho, rfl⟩
    · exact ((if_pos ((isOpen_eq_true s).mp ho)).trans (if_neg (Nat.not_lt.mpr hfit))).symm
    · exact ((if_pos ((isOpen_eq_true s).mp ho)).trans (if_pos hbig)).symm
    · exact (if_neg ((isOpen_eq_false_iff_not s).mp ho)).symm
  | release =>
    rcases execRelease_cases s t h with ⟨hp, rfl⟩ | ⟨hp, rfl⟩
    · exact (if_neg hp).symm
    · exact (if_pos hp).symm
  | hash =>
    rcases execHash_cases s t h with ⟨hk, rfl⟩ | ⟨hk, rfl⟩
    · exact (if_neg (Nat.not_lt.mpr hk)).symm
    · exact (if_pos hk).symm
  | hashPair =>
    rcases execHashPair_cases s t h with ⟨hk, rfl⟩ | ⟨hk, rfl⟩
    · exact (if_neg (Nat.not_lt.mpr hk)).symm
    · exact (if_pos hk).symm
  | index =>
    rcases execIndex_cases s t h with ⟨hn, rfl⟩ | ⟨hn, rfl⟩
    · exact (if_pos hn).symm
    · exact (if_neg hn).symm
  | bitTest =>
    rcases execBitTest_cases s t h with ⟨hv, rfl⟩ | ⟨hv, hr, rfl⟩ | ⟨hv, hr, _, _, rfl⟩
    · exact (if_pos hv).symm
    · exact ((if_neg (by simp [hv])).trans (if_pos hr)).symm
    · exact ((if_neg (by simp [hv])).trans (if_neg (Nat.not_le.mpr hr))).symm
  | contains =>
    rcases execContains_cases s t h with ⟨hd, rfl⟩ | ⟨hd, hk, rfl⟩ | ⟨_, hk, ⟨_, _, _, _, _, _, _, rfl⟩⟩
    · refine (if_neg fun ⟨hv, hn, hr, _⟩ => ?_).symm
      simp [(isDegenerate_eq_false s).mpr ⟨hv, hn, hr⟩] at hd
    · obtain ⟨hv, hn, hr⟩ := (isDegenerate_eq_false s).mp hd
      exact (if_pos ⟨hv, hn, hr, hk⟩).symm
    · exact (if_neg fun ⟨_, _, _, hbig⟩ => Nat.not_lt.mpr hk hbig).symm

/-! ## The ignored accesses (R209) -/

theorem hostWrite_of_decodeReg {n : Nat} {r : Reg} (hn : decodeReg n = some r) (v : U64) (s : State) :
    hostWrite n v s = writeReg r v s := by
  simp only [hostWrite, hn]

theorem hostWrite_of_unimplemented {n : Nat} (hn : decodeReg n = none) (v : U64) (s : State) :
    hostWrite n v s = .next s := by
  simp only [hostWrite, hn]

theorem hostRead_of_unimplemented {n : Nat} (hn : decodeReg n = none) (s : State) :
    hostRead n s = { s with outbox := 0 :: s.outbox } := by
  simp only [hostRead, hn, Option.map_none, Option.getD_none]

theorem pushBitmemByte_of_ignored (d : Byte) {s : State} (h : s.isOpen = false ∨ s.params.bitmemCap ≤ s.bmAddr.toNat) :
    pushBitmemByte d s = s := by
  rcases pushBitmemByte_cases d s with ⟨ho, hlt, _⟩ | ⟨_, he⟩
  · rcases h with hno | hge
    · exact absurd ho (Bool.eq_false_iff.mp hno)
    · exact absurd hlt (Nat.not_lt.mpr hge)
  · exact he

/-- When a write to a register is ignored (R209). -/
def IgnoresWrite (s : State) : Reg → Prop
  | .status | .hashOut | .combined | .ldCnt => True
  | .entries | .hashRounds | .bitCount => s.isOpen = false
  | .kData => s.params.keyCap ≤ s.kAddr.toNat
  | .bmData => s.isOpen = false ∨ s.params.bitmemCap ≤ s.bmAddr.toNat
  | .stream => s.phase = .idle
  | _ => False

theorem writeReg_of_ignored {r : Reg} (v : U64) {s : State} (h : IgnoresWrite s r) : writeReg r v s = .next s := by
  cases r with
  | status | hashOut | combined | ldCnt => rfl
  | entries | hashRounds | bitCount => exact congrArg Host.Outcome.next (if_neg (Bool.eq_false_iff.mp h))
  | kData => exact congrArg Host.Outcome.next (pushKeyByte_of_ge _ s h)
  | bmData => exact congrArg Host.Outcome.next (pushBitmemByte_of_ignored _ h)
  | stream => exact streamByte_of_idle _ h
  | cmd | keyLen | kAddr | seed | h1 | h2 | round | bitIndex | bmAddr => exact h.elim

/-- Settles O49: the number selects a register that ignores the write, or none. -/
theorem ignoredWritesChangeNothing : Obligations.IgnoredWritesChangeNothing := by
  intro n v s h
  have hignored : ∀ r, decodeReg n = some r → IgnoresWrite s r → hostWrite n v s = .next s := fun r hr hi =>
    (hostWrite_of_decodeReg hr v s).trans (writeReg_of_ignored v hi)
  refine ⟨?_, fun hn => congrArg Host.Outcome.next (hostRead_of_unimplemented (decodeReg_eq_none n hn) s)⟩
  simp only [List.mem_cons, List.not_mem_nil, or_false] at h
  rcases h with hr | ⟨hr, ho⟩ | ⟨hr, hk⟩ | ⟨hr, hb⟩ | ⟨hr, hp⟩ | hn
  · rcases hr with hr | hr | hr | hr <;> exact hignored _ hr trivial
  · rcases hr with hr | hr | hr | hr
    · exact hignored _ hr ho
    · exact hignored _ hr ho
    · exact hignored _ hr ho
    · exact hignored _ hr (.inl ho)
  · exact hignored _ hr hk
  · exact hignored _ hr (.inr hb)
  · exact hignored _ hr hp
  · exact hostWrite_of_unimplemented (decodeReg_eq_none n hn) v s

end Sys2Proof.Machine
end

section
/-! The reset family: what the reset event leaves of an arbitrary state (R51, R230, R231). -/

namespace Sys2Proof.Machine

section AfterReset

variable (s : State)

/-- The registers do not show what reset keeps: the epochs and the host's side (log entries 3, 6). -/
theorem readReg_applyReset (r : Reg) : readReg (applyReset s) r = 0 := by
  have hread : readReg (applyReset s) r = readReg (State.resetWith s.params) r := by cases r <;> rfl
  rw [hread, readReg_resetWith]

theorem isOpen_applyReset : (applyReset s).isOpen = true :=
  (isOpen_eq_true _).mpr ⟨applyReset_phase s, applyReset_valid s⟩

theorem bitmemByte_applyReset (k : Nat) :
    bitmemByte (applyReset s) k = Config.freeByte .bitmem (s.bitmemEpoch + 1) k := by
  rw [bitmemByte, applyReset_bitmem, applyReset_bitmemEpoch, readByte_nil]

theorem keybufByte_applyReset (k : Nat) :
    keybufByte (applyReset s) k = Config.freeByte .keybuf (s.resetEpoch + 1) k := by
  rw [keybufByte, applyReset_keybuf, applyReset_resetEpoch, readByte_nil]

theorem ldHdrByte_applyReset (k : Nat) :
    ldHdrByte (applyReset s) k = Config.freeByte .ldHdr (s.resetEpoch + 1) k := by
  rw [ldHdrByte, applyReset_ldHdr, applyReset_resetEpoch, readByte_nil]

end AfterReset

/-- A step on a reset event resets the block and leaves it facing the rest of the inbox (R231). -/
theorem step_reset {s : State} {rest : List HostEvent} (hs : s.inbox = .reset :: rest) :
    step s = .next (applyReset { s with inbox := rest }) :=
  step_cons hs

/-- Settles O8: the step is reset applied to the state with the event taken from its inbox. -/
theorem resetEventClearsTheBlock : Obligations.ResetEventClearsTheBlock := by
  intro s rest hs
  exact ⟨applyReset { s with inbox := rest }, step_reset hs, readReg_applyReset _, applyReset_phase _,
    isOpen_applyReset _, bitmemByte_applyReset _, keybufByte_applyReset _, ldHdrByte_applyReset _,
    applyReset_params _, applyReset_inbox _, applyReset_outbox _⟩

end Sys2Proof.Machine
end
